-- ==== Sys2Proof/Word.lean ====
section
/-! DEFINITION. The widths of the unit: words, command words, precisions and register names (spec/00_scope.md
rules R7, R8, R13; spec/10_state.md rule R20). -/

namespace Sys2Proof

/-- A word: an unsigned value of `W = 64` bits, bit 0 the least significant (R7, R13). -/
abbrev Word := BitVec 64

/-- A command word (R60). -/
abbrev CmdWord := BitVec 32

/-- The 7-bit `fractionalBits` field of a register (R20). -/
abbrev Precision := BitVec 7

/-- The name of a FixedPoint register, `f0` to `f15` (R8, R21, R34). -/
abbrev Reg := Fin 16

end Sys2Proof
end

