-- ==== Sys2Proof/Config.lean ====
section
/-! DEFINITION. The parameters of the unit (spec/00_scope.md section 4): the FIXED ones as constants, the OPEN
ones as the record `Config`, an argument of every function whose result depends on one of them. -/

namespace Sys2Proof

/-- `W`, the word width (R7). FIXED. -/
def wordWidth : Nat := 64

/-- `LOG2_FB_MIN`, the least precision the log2 block accepts (R9). FIXED. -/
def log2FbMin : Nat := 1

/-- `LOG2_FB_MAX`, the greatest precision the log2 block accepts (R9). FIXED. -/
def log2FbMax : Nat := 63

/-- `LN2_FB`, the precision of the natural-log constant (R10). FIXED. -/
def ln2Fb : Precision := 32

/-- The OPEN parameters (R10, R11, R12): "the parameter record ... is fixed for a run and is an argument of the
step function" (R36). Their values at reset are in `Machine/Defaults.lean`; no statement assumes them. -/
structure Config where
  /-- `LN2_MAG`, the magnitude of the natural-log constant at precision `LN2_FB` (R10). -/
  ln2Mag : Word
  /-- `SENTINEL`, the word the log2 block returns for a domain error and for a zero input (R11). -/
  sentinel : Word
  /-- `M`, the randomness source's maximum draw (R12). -/
  maxDraw : Word
  deriving DecidableEq, Repr

/-- The one constraint the spec puts on a parameter: `1 <= M <= 2^W - 1` (R12). -/
abbrev Config.legal (c : Config) : Prop := c.maxDraw ≠ 0

end Sys2Proof
end

