-- ==== Sys2Proof/Syntax.lean ====
section
/-! DEFINITION. The thirteen commands (spec/30_encoding.md rule R65), one constructor per row of
spec/opcode_table.json. -/

namespace Sys2Proof

/-- A command with the operands its format uses (R62). The `wdata` word and the draw are not part of a command
word (R63, R72): they travel beside it. -/
inductive Instr where
  /-- `FXLD rd, fb`: load a value (R100). `imm` is the field as encoded; `WellFormed` bounds it. -/
  | fxld (rd : Reg) (imm : BitVec 8)
  /-- `FXMOV rd, ra`: copy a value (R101). -/
  | fxmov (rd ra : Reg)
  /-- `FXRDM ra`: read the magnitude (R102). -/
  | fxrdm (ra : Reg)
  /-- `FXRDP ra`: read the precision (R103). -/
  | fxrdp (ra : Reg)
  /-- `FXSETI rd`: set the integral part (R104). -/
  | fxseti (rd : Reg)
  /-- `FXSETD rd`: set the fractional part (R105). -/
  | fxsetd (rd : Reg)
  /-- `FXGETI ra`: get the integral part (R106). -/
  | fxgeti (ra : Reg)
  /-- `FXGETD ra`: get the fractional part (R107). -/
  | fxgetd (ra : Reg)
  /-- `FXMUL rd, ra, rb`: multiply (R132). -/
  | fxmul (rd ra rb : Reg)
  /-- `FXDIV rd, ra, rb`: divide (R136). -/
  | fxdiv (rd ra rb : Reg)
  /-- `FXLOG2 rd, ra`: log base 2 (R157). -/
  | fxlog2 (rd ra : Reg)
  /-- `FXLN rd, ra`: natural log (R161). -/
  | fxln (rd ra : Reg)
  /-- `FXEXPS rd, ra`: exponential sample (R182). -/
  | fxexps (rd ra : Reg)
  deriving DecidableEq, Repr

end Sys2Proof
end

