-- ==== Sys2Proof/WellFormed.lean ====
section
/-! DEFINITION. Which commands are legal (spec/30_encoding.md rules R63, R64, R70). -/

namespace Sys2Proof

/-- The check: the immediate is legal, 0 to 64 (R63, R70). Every register field names a register (R61, R64), so
no other operand can be out of range. -/
def Instr.wellFormed : Instr → Bool
  | .fxld _ imm => imm.toNat ≤ wordWidth
  | .fxmov _ _ | .fxrdm _ | .fxrdp _ | .fxseti _ | .fxsetd _ | .fxgeti _ | .fxgetd _ => true
  | .fxmul _ _ _ | .fxdiv _ _ _ | .fxlog2 _ _ | .fxln _ _ | .fxexps _ _ => true

/-- A command is well formed when the check accepts it. -/
abbrev Instr.WellFormed (i : Instr) : Prop := i.wellFormed = true

end Sys2Proof
end

