-- ==== Sys2Proof/Decode.lean ====
section
/-! DEFINITION. The decoder and the encoder (spec/30_encoding.md rules R60 to R71). A command word is one 32-bit
word and the unit has no bytes (spec/20_memory.md rule R48), so decoding starts from the word. -/

namespace Sys2Proof

/-- Why a word is no command. The names are the model's; the unit reports one cause for all three (R69, log 13). -/
inductive Illegal where
  /-- The `op` field is none of the thirteen values (R67). -/
  | undefinedOp
  /-- A field the format does not use, or `z`, is not zero (R68). -/
  | nonzeroUnusedField
  /-- The immediate of `FXLD` is above 64 (R70). -/
  | precisionAbove64
  deriving DecidableEq, Repr

/-- What the decoder answers for a word: a command or the reason it is illegal (R66). -/
inductive Decoded where
  | command (i : Instr)
  | illegal (why : Illegal)
  deriving DecidableEq, Repr

/-- The formats of rule R62. -/
inductive Format where
  | LI | R2 | RD | RS | R3
  deriving DecidableEq, Repr

/-! The fields of a command word, at the same positions in every format (R61). -/

def opField (w : CmdWord) : BitVec 8 := w.extractLsb' 0 8
def rdField (w : CmdWord) : BitVec 4 := w.extractLsb' 8 4
def raField (w : CmdWord) : BitVec 4 := w.extractLsb' 12 4
def rbField (w : CmdWord) : BitVec 4 := w.extractLsb' 16 4
def immField (w : CmdWord) : BitVec 8 := w.extractLsb' 20 8
def zField (w : CmdWord) : BitVec 4 := w.extractLsb' 28 4

/-- The register a 4-bit field names (R64). -/
def regOf (f : BitVec 4) : Reg := f.toFin

/-- The 4-bit field that names a register. -/
def fieldOf (r : Reg) : BitVec 4 := BitVec.ofFin r

/-- The fields format `f` leaves unused, and `z`, are zero (R62, R68). -/
def unusedAreZero (f : Format) (w : CmdWord) : Bool :=
  (zField w == 0) &&
  match f with
  | .LI => (raField w == 0) && (rbField w == 0)
  | .R2 => (rbField w == 0) && (immField w == 0)
  | .RD => (raField w == 0) && (rbField w == 0) && (immField w == 0)
  | .RS => (rdField w == 0) && (rbField w == 0) && (immField w == 0)
  | .R3 => immField w == 0

/-- Step (1) of rule R66: the row an `op` value selects, as its format and the command that the word's fields
then make. -/
def opRow (w : CmdWord) : Option (Format × Instr) :=
  match (opField w).toNat with
  | 0x01 => some (.LI, .fxld (regOf (rdField w)) (immField w))
  | 0x02 => some (.R2, .fxmov (regOf (rdField w)) (regOf (raField w)))
  | 0x03 => some (.RS, .fxrdm (regOf (raField w)))
  | 0x04 => some (.RS, .fxrdp (regOf (raField w)))
  | 0x08 => some (.RD, .fxseti (regOf (rdField w)))
  | 0x09 => some (.RD, .fxsetd (regOf (rdField w)))
  | 0x0A => some (.RS, .fxgeti (regOf (raField w)))
  | 0x0B => some (.RS, .fxgetd (regOf (raField w)))
  | 0x10 => some (.R3, .fxmul (regOf (rdField w)) (regOf (raField w)) (regOf (rbField w)))
  | 0x11 => some (.R3, .fxdiv (regOf (rdField w)) (regOf (raField w)) (regOf (rbField w)))
  | 0x18 => some (.R2, .fxlog2 (regOf (rdField w)) (regOf (raField w)))
  | 0x19 => some (.R2, .fxln (regOf (rdField w)) (regOf (raField w)))
  | 0x20 => some (.R2, .fxexps (regOf (rdField w)) (regOf (raField w)))
  | _ => none

/-- The decoder, total on 32-bit words, in the steps of rule R66. -/
def decode (w : CmdWord) : Decoded :=
  match opRow w with
  | none => .illegal .undefinedOp
  | some (f, i) =>
    if unusedAreZero f w then
      if i.WellFormed then .command i else .illegal .precisionAbove64
    else .illegal .nonzeroUnusedField

/-- The word made of the six fields of rule R61, `z` zero. -/
def packFields (imm : BitVec 8) (rb ra rd : BitVec 4) (op : BitVec 8) : CmdWord :=
  (0 : BitVec 4) ++ imm ++ rb ++ ra ++ rd ++ op

/-- The command word of a command, written from the table of rule R65. -/
def encode : Instr → CmdWord
  | .fxld rd imm => packFields imm 0 0 (fieldOf rd) 0x01
  | .fxmov rd ra => packFields 0 0 (fieldOf ra) (fieldOf rd) 0x02
  | .fxrdm ra => packFields 0 0 (fieldOf ra) 0 0x03
  | .fxrdp ra => packFields 0 0 (fieldOf ra) 0 0x04
  | .fxseti rd => packFields 0 0 0 (fieldOf rd) 0x08
  | .fxsetd rd => packFields 0 0 0 (fieldOf rd) 0x09
  | .fxgeti ra => packFields 0 0 (fieldOf ra) 0 0x0A
  | .fxgetd ra => packFields 0 0 (fieldOf ra) 0 0x0B
  | .fxmul rd ra rb => packFields 0 (fieldOf rb) (fieldOf ra) (fieldOf rd) 0x10
  | .fxdiv rd ra rb => packFields 0 (fieldOf rb) (fieldOf ra) (fieldOf rd) 0x11
  | .fxlog2 rd ra => packFields 0 0 (fieldOf ra) (fieldOf rd) 0x18
  | .fxln rd ra => packFields 0 0 (fieldOf ra) (fieldOf rd) 0x19
  | .fxexps rd ra => packFields 0 0 (fieldOf ra) (fieldOf rd) 0x20

/-- The low `nbits` bits of `w` as a command word: every command is one 32-bit word (R60), so the bits above
`nbits` are zero. -/
def tableWord (nbits w : Nat) : CmdWord := BitVec.ofNat 32 (w % 2 ^ nbits)

/-- The command the decoder reads from a word numbered as spec/opcode_table.json numbers it. A word with a bit
set above bit 31 is no command (R60). -/
def decodeTableWord (nbits w : Nat) : Option Instr :=
  if w % 2 ^ nbits < 2 ^ 32 then
    match decode (tableWord nbits w) with
    | .command i => some i
    | .illegal _ => none
  else none

end Sys2Proof
end

