-- ==== Sys2Proof/Machine/Defaults.lean ====
section
/-! DEFINITION. The values of the OPEN parameters that `State.reset` carries (spec/92_eei_decisions.md, "Open
parameters in one place"). No statement rests on them: `State.cfg` is quantified over like any other field. -/

namespace Sys2Proof.Machine

/-- The spec's recommended defaults of `LN2_MAG` (R10) and `SENTINEL` (R11), and for `M`, which has no default,
the example of the spec's own vectors (R12). DESIGN CHOICE, unsafe for a claim about runs from reset (log 5, log 6). -/
def defaultConfig : Config where
  ln2Mag := 0x00000000B17217F7
  sentinel := 0xFFFFFFFFFFFFFFFF
  maxDraw := 0x000000007FFFFFFF

end Sys2Proof.Machine
end

