-- ==== Sys2Proof/Machine/State.lean ====
section
/-! DEFINITION. The state of the unit (spec/10_state.md), its parameters, and what crosses its ports
(spec/20_memory.md), as plain data; the state after reset. -/

namespace Sys2Proof.Machine

/-- The contents of one register: "a pair of fields" (R14, R21). `mag / 2^fb` is the value it stands for (R22). -/
structure FixedPoint where
  /-- `magnitude`, an unsigned word. -/
  mag : Word
  /-- `fractionalBits`: 7 bits, in `[0, 64]` in every state a run reaches (R24, log 9). -/
  fb : Precision
  deriving DecidableEq, Repr

/-- The conditions that halt the unit (R200). -/
inductive UnitFault where
  /-- Operands of a binary operation differ in precision (R201). -/
  | precisionMismatch
  /-- A divisor's magnitude is zero (R202). -/
  | divideByZero
  /-- The word presented is no command (R203). -/
  | illegalCommand
  deriving DecidableEq, Repr

/-- The legal values of the `CAUSE` field, in the order of their codes 0 to 3 (R30). -/
inductive Cause where
  | none
  | precisionMismatch
  | divideByZero
  | illegalCommand
  deriving DecidableEq, Repr

/-- What reaches the unit from outside, one at a time: a command with its `wdata` word and the word on the
randomness port (R15, R41, R44), or an assertion of `rst` (R45, R231). -/
inductive HostEvent where
  | command (cmd : CmdWord) (wdata rnd : Word)
  | reset
  deriving DecidableEq, Repr

/-- The state: the five pieces of rule R20, the parameters of rule R36, and the model's own record of the
ports (log 1, log 5). -/
structure State where
  /-- The sixteen FixedPoint registers (R20, R21). -/
  F : Vector FixedPoint 16
  /-- `HALT`: the unit has faulted and ignores commands (R30). -/
  halt : Bool
  /-- `CAUSE`: which fault halted the unit (R30). -/
  cause : Cause
  /-- `FCMD`: the command word that faulted (R31). -/
  fcmd : CmdWord
  /-- The parameter record, "changed by no command" (R36). -/
  cfg : Config
  /-- The host's next events, the first one first (R41, R51). -/
  pending : List HostEvent
  /-- The `cmd` port: the command word being executed (R14, R46). -/
  cmd : CmdWord
  /-- The `wdata` port: the word the host drives with the command (R14, R41). -/
  wdata : Word
  /-- The `rnd` port: the draw for this command, a free input (R14, R44). -/
  rnd : Word
  /-- The response of the last command, if it produced one (R42). -/
  rdata : Option Word
  /-- How many draws the unit has asked the randomness source for (R44, R181). -/
  drawsTaken : Nat
  deriving DecidableEq, Repr

/-- No step ends in a fault outcome, so there is no reason for one: what the spec calls a fault is "a step whose
next state has `HALT = 1`" (R15, log 10). -/
inductive Fault where
  deriving DecidableEq, Repr

/-- Why `exec` may refuse a command. -/
inductive Refusal where
  /-- A command that has no meaning yet. Raised by no arm of `exec` of this model. Safe: the model would stop where
  the unit goes on. -/
  | notModelled (mnemonic : String)
  deriving DecidableEq, Repr

/-- The value a register holds after reset: the integer 0 at precision 0 (R37). -/
def FixedPoint.zero : FixedPoint := ⟨0, 0⟩

/-- The state right after reset (R37, R230): every register `(0, 0)`, `HALT`, `CAUSE` and `FCMD` zero. The
parameters are those of `defaultConfig` (log 5, log 6); nothing is presented on the ports (log 18). -/
def State.reset : State where
  F := Vector.replicate 16 FixedPoint.zero
  halt := false
  cause := .none
  fcmd := 0
  cfg := defaultConfig
  pending := []
  cmd := 0
  wdata := 0
  rnd := 0
  rdata := Option.none
  drawsTaken := 0

end Sys2Proof.Machine
end

