-- ==== Sys2Proof/Machine/Operands.lean ====
section
/-! DEFINITION. The arithmetic notation of the spec (spec/00_scope.md rule R13) and the operand forms a command
has (spec/30_encoding.md rule R64): a register, the immediate, the `wdata` word, the draw. -/

namespace Sys2Proof.Machine

/-- `trunc_W(v) = v mod 2^W` (R13). -/
def trunc (v : Nat) : Word := BitVec.ofNat 64 v

/-- `lowmask(p) = 2^p - 1` (R13); at `p = W` the full word. -/
def lowmask (p : Nat) : Nat := 2 ^ p - 1

/-- `neg_W(v) = (2^W - v) mod 2^W`, two's-complement negation (R13, R160). -/
def negW (v : Word) : Word := trunc (2 ^ 64 - v.toNat)

/-- `signed_W(v)`: a word read as two's complement (R13). Only explains results: no rule computes with it. -/
def signedW (v : Word) : Int := if v.toNat < 2 ^ 63 then v.toNat else (v.toNat : Int) - 2 ^ 64

/-- The register operand: the whole FixedPoint register a field names (R64). -/
def State.reg (s : State) (r : Reg) : FixedPoint := s.F[r]

/-- `F[r].mag`. -/
def State.mag (s : State) (r : Reg) : Word := (s.reg r).mag

/-- `F[r].fb` as the field holds it. -/
def State.fb (s : State) (r : Reg) : Precision := (s.reg r).fb

/-- `p = F[r].fb` as the integer the formulas use (R14). -/
def State.prec (s : State) (r : Reg) : Nat := (s.fb r).toNat

/-- The immediate of a well-formed `FXLD` as an `fb` field: "used as it stands: not sign-extended, not scaled, not
shifted" (R63). -/
def immPrecision (imm : BitVec 8) : Precision := BitVec.ofNat 7 imm.toNat

/-- The integral part of a register's contents, `mag >> p` (R22, R106). -/
def integralPart (mag : Word) (p : Nat) : Word := trunc (mag.toNat >>> p)

/-- The fractional field of a register's contents, `mag & lowmask(p)` (R22, R107). -/
def fractionalPart (mag : Word) (p : Nat) : Word := trunc (mag.toNat &&& lowmask p)

/-- The magnitude `FXSETI` stores: the low `p` bits kept, `value << p` truncated to a word above them (R104). -/
def withIntegral (mag : Word) (p : Nat) (value : Word) : Word :=
  trunc ((mag.toNat &&& lowmask p) ||| (trunc (value.toNat <<< p)).toNat)

/-- The magnitude `FXSETD` stores: the low `p` bits cleared and replaced by those of `value` (R105). -/
def withFractional (mag : Word) (p : Nat) (value : Word) : Word :=
  trunc ((mag.toNat - mag.toNat % 2 ^ p) ||| (value.toNat &&& lowmask p))

end Sys2Proof.Machine
end

