-- ==== Sys2Proof/Machine/Flags.lean ====
section
/-! DEFINITION. The status outputs. The unit has no flags, no condition codes and no predicates, and no command
computes one (spec/10_state.md rule R29); its whole status is `STATUS` and `FCMD` (R30, R31), which no command
reads and which are driven on output ports (spec/20_memory.md rule R45). -/

namespace Sys2Proof.Machine

/-- The cause code a fault writes (R200). -/
def UnitFault.cause : UnitFault → Cause
  | .precisionMismatch => .precisionMismatch
  | .divideByZero => .divideByZero
  | .illegalCommand => .illegalCommand

/-- The two bits of the `CAUSE` field (R30). -/
def Cause.code : Cause → BitVec 2
  | .none => 0
  | .precisionMismatch => 1
  | .divideByZero => 2
  | .illegalCommand => 3

/-- The `halt` port (R45). -/
def State.haltPort (s : State) : BitVec 1 := BitVec.ofBool s.halt

/-- The `cause` port (R45). -/
def State.causePort (s : State) : BitVec 2 := s.cause.code

/-- The `fcmd` port (R45). -/
def State.fcmdPort (s : State) : CmdWord := s.fcmd

/-- The 3-bit `STATUS` register: `CAUSE` in bits 2:1, `HALT` in bit 0 (R30). -/
def State.statusWord (s : State) : BitVec 3 := s.causePort ++ s.haltPort

end Sys2Proof.Machine
end

