-- ==== Sys2Proof/Machine/Ops.lean ====
section
/-! DEFINITION. The shared operations: accepting a transaction, writing a register, responding, taking a fault,
taking a draw, ignoring a command while halted, and reset (spec/20_memory.md, spec/60_exceptions.md,
spec/70_reset_and_hazards.md). Every command's meaning is made of these. -/

namespace Sys2Proof.Machine

/-- What every step answers with. -/
abbrev Outcome := Host.Outcome State Fault Refusal

/-- What a block computes: a word, or the fault its command raises (R180). -/
inductive BlockResult where
  | value (v : Word)
  | fault (f : UnitFault)
  deriving DecidableEq, Repr

/-- A command that completes by writing `F[rd]`: both fields at once, no response (R25, R42, R237). -/
def State.complete (s : State) (rd : Reg) (v : FixedPoint) : State :=
  { s with F := s.F.set rd v, rdata := none }

/-- A command that completes by producing a response word, the state unchanged (R42, R50). -/
def State.respond (s : State) (v : Word) : State := { s with rdata := some v }

/-- TAKING A FAULT, as one atomic step: "HALT <- 1, CAUSE <- code, FCMD <- cmd ... Nothing else changes", no
register written and no response (R206). There is no handler to go to, and no return from a fault: the only way out
is `State.resetUnit` (R213). -/
def State.raise (s : State) (f : UnitFault) : State :=
  { s with halt := true, cause := f.cause, fcmd := s.cmd, rdata := none }

/-- What a halted unit does with any command: the state does not change and there is no response (R207). -/
def State.ignore (s : State) : State := { s with rdata := none }

/-- Asking the randomness source for one draw; the word delivered is `rnd` (R44, R181). -/
def State.takeDraw (s : State) : State := { s with drawsTaken := s.drawsTaken + 1 }

/-- Reset: every piece of the unit's state at the value of rule R37. It does not touch the parameters, the
randomness source or anything else outside the unit (R230, log 14). -/
def State.resetUnit (s : State) : State :=
  { s with
    F := Vector.replicate 16 FixedPoint.zero, halt := false, cause := .none, fcmd := 0, rdata := none }

/-- The unit accepts a transaction: its words stand on the input ports while the command executes (R41, R46). -/
def State.accept (s : State) (rest : List HostEvent) (cmd : CmdWord) (wdata rnd : Word) : State :=
  { s with pending := rest, cmd := cmd, wdata := wdata, rnd := rnd }

/-- A block's result ends its command: a value is stored in `F[rd]` at precision `p`, a fault is taken. -/
def State.finish (s : State) (rd : Reg) (p : Precision) : BlockResult → State
  | .value v => s.complete rd ⟨v, p⟩
  | .fault f => s.raise f

/-- A command has its effect only while `HALT = 0`; while `HALT = 1` it is ignored (R207). Every command
ends in a next state: nothing a command does stops the model (R15, R240). -/
def State.onCommand (s : State) (effect : State → State) : Outcome :=
  .next (if s.halt then s.ignore else effect s)

/-- A word that is no command, executed: the IllegalCommand fault (R69, R203). -/
def execIllegal (s : State) : Outcome := s.onCommand fun s => s.raise .illegalCommand

end Sys2Proof.Machine
end

