-- ==== Sys2Proof/Machine/Accessors.lean ====
section
/-! DEFINITION. The four accessors: FXSETI, FXSETD, FXGETI, FXGETD (spec/40_transfer_and_accessors.md section 2). -/

namespace Sys2Proof.Machine

/-- `FXSETI rd`, setIntegral: the integral bits replaced by `wdata`, `fb` unchanged (R104). -/
def execFxseti (rd : Reg) (s : State) : Outcome := s.onCommand fun s =>
  s.complete rd ⟨withIntegral (s.mag rd) (s.prec rd) s.wdata, s.fb rd⟩

/-- `FXSETD rd`, setDecimal: the fractional bits replaced by those of `wdata`, `fb` unchanged (R105). -/
def execFxsetd (rd : Reg) (s : State) : Outcome := s.onCommand fun s =>
  s.complete rd ⟨withFractional (s.mag rd) (s.prec rd) s.wdata, s.fb rd⟩

/-- `FXGETI ra`, getIntegral: `rdata <- F[ra].mag >> p` (R106). -/
def execFxgeti (ra : Reg) (s : State) : Outcome := s.onCommand fun s =>
  s.respond (integralPart (s.mag ra) (s.prec ra))

/-- `FXGETD ra`, getDecimal: `rdata <- F[ra].mag & lowmask(p)` (R107). -/
def execFxgetd (ra : Reg) (s : State) : Outcome := s.onCommand fun s =>
  s.respond (fractionalPart (s.mag ra) (s.prec ra))

end Sys2Proof.Machine
end

