-- ==== Sys2Proof/Machine/Arithmetic.lean ====
section
/-! DEFINITION. The blocks `fixed_point_multiply` and `fixed_point_divide` and the commands FXMUL and FXDIV
(spec/41_multiply_divide.md). -/

namespace Sys2Proof.Machine

/-- `fx_mul(a, b, p) = trunc_W((a * b) >> p)`: exact product, logical shift, truncation (R130, R131). -/
def fxMul (a b : Word) (p : Nat) : Word := trunc ((a.toNat * b.toNat) >>> p)

/-- `fx_div(a, b, p) = trunc_W((a << p) div b)`; a zero divisor has no value, it is the DivideByZero fault
(R134, R135, R137 (b)). -/
def fxDiv (a b : Word) (p : Nat) : BlockResult :=
  if b = 0 then .fault .divideByZero else .value (trunc ((a.toNat <<< p) / b.toNat))

/-- `FXMUL rd, ra, rb`: PrecisionMismatch unless the precisions are equal, else the product (R132). -/
def execFxmul (rd ra rb : Reg) (s : State) : Outcome := s.onCommand fun s =>
  if s.fb ra ≠ s.fb rb then s.raise .precisionMismatch
  else s.complete rd ⟨fxMul (s.mag ra) (s.mag rb) (s.prec ra), s.fb ra⟩

/-- `FXDIV rd, ra, rb`: PrecisionMismatch unless the precisions are equal, then DivideByZero on a zero divisor,
else the quotient (R136, R209). -/
def execFxdiv (rd ra rb : Reg) (s : State) : Outcome := s.onCommand fun s =>
  if s.fb ra ≠ s.fb rb then s.raise .precisionMismatch
  else s.finish rd (s.fb ra) (fxDiv (s.mag ra) (s.mag rb) (s.prec ra))

end Sys2Proof.Machine
end

