-- ==== Sys2Proof/Machine/Logarithm.lean ====
section
/-! DEFINITION. The blocks `log2_approximation` and `natural_log_engine` and the commands FXLOG2 and FXLN
(spec/42_logarithm.md). The block has no lookup table (spec/90_conflicts.md C1). -/

namespace Sys2Proof.Machine

/-- Step 3a of rule R150, below the window: double `x` and take one unit from the wrapping accumulator `y`, until
`unit <= x`. The first argument bounds the turns: at most 63 are made (R155, log 17). -/
def doubleIntoWindow (unit : Nat) : Nat → Nat → Word → Nat × Word
  | 0, x, y => (x, y)
  | n + 1, x, y => if x < unit then doubleIntoWindow unit n (x <<< 1) (y - trunc unit) else (x, y)

/-- Step 3b of rule R150, at or above the window: halve `x` and add one unit to `y`, until `x < 2 * unit`. The
bound `2 * unit` does not wrap (R152). -/
def halveIntoWindow (unit : Nat) : Nat → Nat → Word → Nat × Word
  | 0, x, y => (x, y)
  | n + 1, x, y => if 2 * unit ≤ x then halveIntoWindow unit n (x >>> 1) (y + trunc unit) else (x, y)

/-- Step 4 of rule R150, run exactly as many times as the third argument says: square the mantissa `z` and
rescale; if it reaches `2 * unit`, halve it and add the bit weight `b` to `y`; halve `b` (R153). -/
def squareBits (p unit : Nat) : Nat → Nat → Nat → Word → Word
  | 0, _, _, y => y
  | n + 1, z, b, y =>
    let sq := (z * z) >>> p
    if 2 * unit ≤ sq then squareBits p unit n (sq >>> 1) (b >>> 1) (y + trunc b)
    else squareBits p unit n sq (b >>> 1) y

/-- Steps 3 to 5 of rule R150, for `1 <= p <= 63` and `x != 0`. -/
def log2Steps (x : Word) (p : Nat) : Word :=
  let unit := 2 ^ p
  let up := doubleIntoWindow unit wordWidth x.toNat 0
  let window := halveIntoWindow unit wordWidth up.1 up.2
  squareBits p unit p window.1 (2 ^ (p - 1)) window.2

/-- `fx_log2(x, p)` (R150). A precision outside `[1, 63]` (DomainError) and a zero input (NegativeInfinity) both
give `SENTINEL` and are not faults (R151, R204, R205). -/
def fxLog2 (c : Config) (x : Word) (p : Nat) : Word :=
  if p < log2FbMin ∨ log2FbMax < p then c.sentinel
  else if x = 0 then c.sentinel
  else log2Steps x p

/-- `fx_ln(x) = fx_mul(neg_W(fx_log2(x, LN2_FB)), LN2_MAG, LN2_FB)`: the negation is unconditional and the
multiply unsigned (R159, R160). -/
def fxLn (c : Config) (x : Word) : Word :=
  fxMul (negW (fxLog2 c x ln2Fb.toNat)) c.ln2Mag ln2Fb.toNat

/-- `FXLOG2 rd, ra`: the destination takes the source's `fb` in every case (R157). -/
def execFxlog2 (rd ra : Reg) (s : State) : Outcome := s.onCommand fun s =>
  s.complete rd ⟨fxLog2 s.cfg (s.mag ra) (s.prec ra), s.fb ra⟩

/-- `FXLN rd, ra`: PrecisionMismatch unless the precision is 32 (R161, R162). -/
def execFxln (rd ra : Reg) (s : State) : Outcome := s.onCommand fun s =>
  if s.fb ra ≠ ln2Fb then s.raise .precisionMismatch
  else s.complete rd ⟨fxLn s.cfg (s.mag ra), ln2Fb⟩

end Sys2Proof.Machine
end

