-- ==== Sys2Proof/Machine/Sampler.lean ====
section
/-! DEFINITION. The block `exponential_sampler` and the command FXEXPS (spec/43_exponential_sampler.md). -/

namespace Sys2Proof.Machine

/-- `fx_exps(q, p, ran)` in the source's steps 2 to 6: `r` and `MAX` are the shifted words, the first divide
faults if `MAX = 0`, the natural log if `p != 32`, the last divide if `q = 0`, in that order (R180, R183). -/
def fxExps (c : Config) (q : Word) (p : Precision) (ran : Word) : BlockResult :=
  let r := trunc (ran.toNat <<< p.toNat)
  let max := trunc (c.maxDraw.toNat <<< p.toNat)
  match fxDiv r max p.toNat with
  | .fault f => .fault f
  | .value u => if p ≠ ln2Fb then .fault .precisionMismatch else fxDiv (fxLn c u) q ln2Fb.toNat

/-- `FXEXPS rd, ra`: exactly one draw, taken before anything else and consumed even if the command then faults
(R181); then `fx_exps` of the rate `F[ra]` and the draw (R182). -/
def execFxexps (rd ra : Reg) (s : State) : Outcome := s.onCommand fun s =>
  s.takeDraw.finish rd (s.fb ra) (fxExps s.cfg (s.mag ra) (s.fb ra) s.rnd)

end Sys2Proof.Machine
end

