-- ==== Sys2Proof/Machine/Transfer.lean ====
section
/-! DEFINITION. Moving whole values: FXLD, FXMOV, FXRDM, FXRDP (spec/40_transfer_and_accessors.md section 1). -/

namespace Sys2Proof.Machine

/-- `FXLD rd, fb`: `F[rd] <- (mag = wdata, fb = imm)`; IllegalCommand if `imm > 64` (R100). -/
def execFxld (rd : Reg) (imm : BitVec 8) (s : State) : Outcome := s.onCommand fun s =>
  if imm.toNat ≤ wordWidth then s.complete rd ⟨s.wdata, immPrecision imm⟩ else s.raise .illegalCommand

/-- `FXMOV rd, ra`: `F[rd] <- F[ra]` (R101). -/
def execFxmov (rd ra : Reg) (s : State) : Outcome := s.onCommand fun s => s.complete rd ⟨s.mag ra, s.fb ra⟩

/-- `FXRDM ra`: `rdata <- F[ra].mag` (R102). -/
def execFxrdm (ra : Reg) (s : State) : Outcome := s.onCommand fun s => s.respond (s.mag ra)

/-- `FXRDP ra`: `rdata <- zext_64(F[ra].fb)` (R103). -/
def execFxrdp (ra : Reg) (s : State) : Outcome := s.onCommand fun s => s.respond ((s.fb ra).zeroExtend 64)

end Sys2Proof.Machine
end

