-- ==== Sys2Proof/Machine/Dispatch.lean ====
section
/-! DEFINITION. The meaning of every command, one arm per constructor (spec/30_encoding.md rule R65). -/

namespace Sys2Proof.Machine

def exec (i : Instr) (s : State) : Host.Outcome State Fault Refusal :=
  match i with
  | .fxld rd imm => Sys2Proof.Machine.execFxld rd imm s
  | .fxmov rd ra => Sys2Proof.Machine.execFxmov rd ra s
  | .fxrdm ra => Sys2Proof.Machine.execFxrdm ra s
  | .fxrdp ra => Sys2Proof.Machine.execFxrdp ra s
  | .fxseti rd => Sys2Proof.Machine.execFxseti rd s
  | .fxsetd rd => Sys2Proof.Machine.execFxsetd rd s
  | .fxgeti ra => Sys2Proof.Machine.execFxgeti ra s
  | .fxgetd ra => Sys2Proof.Machine.execFxgetd ra s
  | .fxmul rd ra rb => Sys2Proof.Machine.execFxmul rd ra rb s
  | .fxdiv rd ra rb => Sys2Proof.Machine.execFxdiv rd ra rb s
  | .fxlog2 rd ra => Sys2Proof.Machine.execFxlog2 rd ra s
  | .fxln rd ra => Sys2Proof.Machine.execFxln rd ra s
  | .fxexps rd ra => Sys2Proof.Machine.execFxexps rd ra s

end Sys2Proof.Machine
end

