-- ==== Sys2Proof/Machine/Step.lean ====
section
/-! DEFINITION. One step of the unit: the host's next event, executed completely (spec/00_scope.md rule R15,
spec/20_memory.md rules R41, R51). -/

namespace Sys2Proof.Machine

/-- The command on the `cmd` port, decoded and executed; decoding comes before anything else (R66, R209 (1)). -/
def runCommand (s : State) : Host.Outcome State Fault Refusal :=
  match decode s.cmd with
  | .command i => exec i s
  | .illegal _ => execIllegal s

/-- One step. With nothing presented the unit is idle and its state is held (R220, log 3); `rst` resets it
(R230, R231); a command is accepted and runs to its end (R41). -/
def step (s : State) : Host.Outcome State Fault Refusal :=
  match s.pending with
  | [] => .next s
  | .reset :: rest => .next { s with pending := rest }.resetUnit
  | .command cmd wdata rnd :: rest => runCommand (s.accept rest cmd wdata rnd)

/-- `s` with a command word presented as the host's very next command. The unit fetches nothing (R28): what it
runs next is what the host presents, so the word goes to the head of `pending`, with the data and draw words
that stand on the ports of `s` (log 2). -/
def State.withFetchWord (s : State) (nbits w : Nat) : State :=
  { s with pending := .command (tableWord nbits w) s.wdata s.rnd :: s.pending }

end Sys2Proof.Machine
end

