-- ==== Sys2Proof/Safety.lean ====
section
/-! DEFINITION. What counts as a safe run, and the invariants of the unit, in the terms the claims use
(spec/70_reset_and_hazards.md rule R239, spec/10_state.md rules R24, R30, R31, spec/60_exceptions.md rule R221). -/

namespace Sys2Proof.Machine

/-- A run of `k` steps that succeeded: it came to a next state and `HALT = 0` there. "A model must treat a halted
state as a failed run, never as a successful end" (R207, R239). -/
def RunSucceeds (k : Nat) (s : State) : Prop := ∃ t, core.run k s = .next t ∧ t.halt = false

/-- R24: every register's `fb` lies in `[0, W]`. -/
def PrecisionsInRange (s : State) : Prop := ∀ r : Reg, s.prec r ≤ wordWidth

/-- R30 and R31: `CAUSE = 0` exactly when `HALT = 0`, and `FCMD` reads 0 while `HALT = 0`. -/
def StatusCoherent (s : State) : Prop := (s.causePort = 0 ↔ s.haltPort = 0) ∧ (s.haltPort = 0 → s.fcmdPort = 0)

/-- The commands that can raise PrecisionMismatch (R200, R221). -/
def canMismatch : Instr → Bool
  | .fxmul _ _ _ | .fxdiv _ _ _ | .fxln _ _ | .fxexps _ _ => true
  | .fxld _ _ | .fxmov _ _ | .fxrdm _ | .fxrdp _ | .fxseti _ | .fxsetd _ | .fxgeti _ | .fxgetd _ | .fxlog2 _ _ => false

/-- The commands that can raise DivideByZero (R200, R221). -/
def canDivideByZero : Instr → Bool
  | .fxdiv _ _ _ | .fxexps _ _ => true
  | .fxld _ _ | .fxmov _ _ | .fxrdm _ | .fxrdp _ | .fxseti _ | .fxsetd _ | .fxgeti _ | .fxgetd _ | .fxmul _ _ _
  | .fxlog2 _ _ | .fxln _ _ => false

/-- `CAUSE` and `FCMD` "always describe the first" fault (R213): `FCMD` holds a word that can raise the fault
`CAUSE` names. -/
def FaultExplained (s : State) : Prop :=
  match s.cause with
  | .none => True
  | .precisionMismatch => ∃ i, decode s.fcmd = .command i ∧ canMismatch i = true
  | .divideByZero => ∃ i, decode s.fcmd = .command i ∧ canDivideByZero i = true
  | .illegalCommand => ∃ why, decode s.fcmd = .illegal why

/-! What each command reads and writes (R25, R41, R44). -/

/-- The register a command writes when it completes, if it writes one (R25). The four that write none are the
four that respond (R42). -/
def destination : Instr → Option Reg
  | .fxld rd _ | .fxmov rd _ | .fxseti rd | .fxsetd rd | .fxmul rd _ _ | .fxdiv rd _ _ | .fxlog2 rd _ | .fxln rd _
  | .fxexps rd _ => some rd
  | .fxrdm _ | .fxrdp _ | .fxgeti _ | .fxgetd _ => none

/-- The commands that read the `wdata` word (R41). -/
def readsWdata : Instr → Bool
  | .fxld _ _ | .fxseti _ | .fxsetd _ => true
  | .fxmov _ _ | .fxrdm _ | .fxrdp _ | .fxgeti _ | .fxgetd _ | .fxmul _ _ _ | .fxdiv _ _ _ | .fxlog2 _ _
  | .fxln _ _ | .fxexps _ _ => false

/-- The one command that asks for a draw (R44). -/
def takesDraw : Instr → Bool
  | .fxexps _ _ => true
  | .fxld _ _ | .fxmov _ _ | .fxrdm _ | .fxrdp _ | .fxseti _ | .fxsetd _ | .fxgeti _ | .fxgetd _ | .fxmul _ _ _
  | .fxdiv _ _ _ | .fxlog2 _ _ | .fxln _ _ => false

/-- How many draws a command asks for while `HALT = 0` (R44, R181). -/
def drawCount (i : Instr) : Nat := if takesDraw i then 1 else 0

/-! The logarithm without its loops (R152, R153): terms the claims about `fx_log2` use. -/

/-- R152: the input `x` normalised into the window `[2^p, 2^(p+1))`, from the position `k` of its highest set bit. -/
def normalised (x p : Nat) : Nat :=
  let k := Nat.log2 x
  if k < p then x * 2 ^ (p - k) else x / 2 ^ (k - p)

/-- R153: the test of one iteration, "if the result reaches or exceeds `2*unit`", on the mantissa `z`. -/
abbrev squareReaches (p z : Nat) : Prop := 2 ^ (p + 1) ≤ z * z / 2 ^ p

/-- R153: the mantissa before iteration `i`, counting from 0, when it is `z` before the first. -/
def mantissa (p z : Nat) : Nat → Nat
  | 0 => z
  | i + 1 =>
    let sq := mantissa p z i * mantissa p z i / 2 ^ p
    if 2 ^ (p + 1) ≤ sq then sq / 2 else sq

end Sys2Proof.Machine
end

