-- ==== Sys2Proof/Certificates/Slice0/Obligations.lean ====
section
/-! DEFINITION. What is claimed of the model, in the terms of the spec's numbered rules. The parameters `LN2_MAG`,
`SENTINEL` and `M` are fields of the state, so every statement over all states holds for every value of them; a
statement that needs a value names it. -/

namespace Sys2Proof.Claims

open Sys2Proof.Machine

/-- Every register reads as before. -/
def SameRegisters (s t : State) : Prop := ∀ r : Reg, t.reg r = s.reg r

/-- `HALT`, `CAUSE` and `FCMD` are as before. -/
def SameStatus (s t : State) : Prop := t.halt = s.halt ∧ t.cause = s.cause ∧ t.fcmd = s.fcmd

/-- The parameters, the input ports and the host's further events are as before. -/
def SameSurroundings (s t : State) : Prop :=
  t.cfg = s.cfg ∧ t.pending = s.pending ∧ t.cmd = s.cmd ∧ t.wdata = s.wdata ∧ t.rnd = s.rnd

/-- The frame of a command that writes `F[rd]` and takes `draws` draws: nothing else changes, no response. -/
def OnlyWrites (rd : Reg) (draws : Nat) (s t : State) : Prop :=
  (∀ r : Reg, r ≠ rd → t.reg r = s.reg r) ∧ SameStatus s t ∧ SameSurroundings s t ∧ t.rdata = none ∧
    t.drawsTaken = s.drawsTaken + draws

/-- The frame of a command that responds with `v`: nothing else changes. -/
def OnlyResponds (v : Word) (s t : State) : Prop :=
  t.rdata = some v ∧ SameRegisters s t ∧ SameStatus s t ∧ SameSurroundings s t ∧ t.drawsTaken = s.drawsTaken

/-- R206: a fault with cause `code` has been taken on the command word `s.cmd`, after `draws` draws. -/
def Faulted (code draws : Nat) (s t : State) : Prop :=
  t.haltPort = 1 ∧ t.causePort.toNat = code ∧ t.statusWord.toNat = 2 * code + 1 ∧ t.fcmdPort = s.cmd ∧
    SameRegisters s t ∧ SameSurroundings s t ∧ t.rdata = none ∧ t.drawsTaken = s.drawsTaken + draws

/-- R61: the word with these field values, `z` zero. -/
def word (op : Nat) (rd ra rb : Nat) (imm : Nat) : CmdWord :=
  BitVec.ofNat 32 (imm * 2 ^ 20 + rb * 2 ^ 16 + ra * 2 ^ 12 + rd * 2 ^ 8 + op)

/-- `w` is the one word that decodes to `i`. -/
def EncodedAs (i : Instr) (w : CmdWord) : Prop := ∀ v, decode v = .command i ↔ v = w

/-- The mnemonic of a command (R65). -/
def mnemonic : Instr → String
  | .fxld _ _ => "FXLD"
  | .fxmov _ _ => "FXMOV"
  | .fxrdm _ => "FXRDM"
  | .fxrdp _ => "FXRDP"
  | .fxseti _ => "FXSETI"
  | .fxsetd _ => "FXSETD"
  | .fxgeti _ => "FXGETI"
  | .fxgetd _ => "FXGETD"
  | .fxmul _ _ _ => "FXMUL"
  | .fxdiv _ _ _ => "FXDIV"
  | .fxlog2 _ _ => "FXLOG2"
  | .fxln _ _ => "FXLN"
  | .fxexps _ _ => "FXEXPS"

/-- The mnemonic, mask and match of each row of the table of R65. -/
def rows : List (String × CmdWord × CmdWord) :=
  [("FXLD", 0xF80FF0FF, 0x00000001), ("FXMOV", 0xFFFF00FF, 0x00000002), ("FXRDM", 0xFFFF0FFF, 0x00000003),
   ("FXRDP", 0xFFFF0FFF, 0x00000004), ("FXSETI", 0xFFFFF0FF, 0x00000008), ("FXSETD", 0xFFFFF0FF, 0x00000009),
   ("FXGETI", 0xFFFF0FFF, 0x0000000A), ("FXGETD", 0xFFFF0FFF, 0x0000000B), ("FXMUL", 0xFFF000FF, 0x00000010),
   ("FXDIV", 0xFFF000FF, 0x00000011), ("FXLOG2", 0xFFFF00FF, 0x00000018), ("FXLN", 0xFFFF00FF, 0x00000019),
   ("FXEXPS", 0xFFFF00FF, 0x00000020)]

/-- The condition under which a running command raises PrecisionMismatch, after the priorities of R209 (R221). -/
def Mismatch (s : State) : Instr → Prop
  | .fxmul _ ra rb | .fxdiv _ ra rb => s.prec ra ≠ s.prec rb
  | .fxln _ ra => s.prec ra ≠ 32
  | .fxexps _ ra => s.cfg.maxDraw.toNat * 2 ^ s.prec ra % 2 ^ 64 ≠ 0 ∧ s.prec ra ≠ 32
  | .fxld _ _ | .fxmov _ _ | .fxrdm _ | .fxrdp _ | .fxseti _ | .fxsetd _ | .fxgeti _ | .fxgetd _ | .fxlog2 _ _ => False

/-- The condition under which a running command raises DivideByZero, after the priorities of R209 (R221). -/
def ZeroDivisor (s : State) : Instr → Prop
  | .fxdiv _ ra rb => s.prec ra = s.prec rb ∧ s.mag rb = 0
  | .fxexps _ ra => s.cfg.maxDraw.toNat * 2 ^ s.prec ra % 2 ^ 64 = 0 ∨ (s.prec ra = 32 ∧ s.mag ra = 0)
  | .fxld _ _ | .fxmov _ _ | .fxrdm _ | .fxrdp _ | .fxseti _ | .fxsetd _ | .fxgeti _ | .fxgetd _ | .fxmul _ _ _
  | .fxlog2 _ _ | .fxln _ _ => False

end Sys2Proof.Claims

open Sys2Proof Sys2Proof.Machine Sys2Proof.Claims

/-! ## The command words (spec/30_encoding.md) -/

/-- R74: the worked encodings and the listed illegal words. -/
def Obligations.WorkedEncodingsDecodeAsListed : Prop :=
  decode 0x02000101 = .command (.fxld 1 32) ∧ decode 0x04000001 = .command (.fxld 0 64) ∧
  decode 0x00000F01 = .command (.fxld 15 0) ∧ decode 0x00004502 = .command (.fxmov 5 4) ∧
  decode 0x00003003 = .command (.fxrdm 3) ∧ decode 0x00003004 = .command (.fxrdp 3) ∧
  decode 0x00000108 = .command (.fxseti 1) ∧ decode 0x00000109 = .command (.fxsetd 1) ∧
  decode 0x0000100A = .command (.fxgeti 1) ∧ decode 0x0000100B = .command (.fxgetd 1) ∧
  decode 0x00021310 = .command (.fxmul 3 1 2) ∧ decode 0x00021311 = .command (.fxdiv 3 1 2) ∧
  decode 0x00001218 = .command (.fxlog2 2 1) ∧ decode 0x00001219 = .command (.fxln 2 1) ∧
  decode 0x00001220 = .command (.fxexps 2 1) ∧
  decode 0x00000000 = .illegal .undefinedOp ∧ decode 0x00000005 = .illegal .undefinedOp ∧
  decode 0x04100201 = .illegal .precisionAbove64 ∧ decode 0x08000101 = .illegal .precisionAbove64 ∧
  decode 0x10021310 = .illegal .nonzeroUnusedField ∧ decode 0x00121310 = .illegal .nonzeroUnusedField ∧
  decode 0x00011218 = .illegal .nonzeroUnusedField ∧ decode 0x00001103 = .illegal .nonzeroUnusedField ∧
  decode 0x00001108 = .illegal .nonzeroUnusedField

/-- Decoding the word of a well-formed command gives the command back, every operand included (R61, R62, R66). -/
def Obligations.DecodeOfEncodeIsTheCommand : Prop :=
  ∀ i : Instr, i.WellFormed → decode (encode i) = .command i

/-- A word that decodes to a command is that command's own word, and the command is well formed: no word has two
readings and no command two words (R66: "The rows are disjoint"). -/
def Obligations.DecodedWordIsItsEncoding : Prop :=
  ∀ (w : CmdWord) (i : Instr), decode w = .command i → encode i = w ∧ i.WellFormed

/-- R65: a word is an instance of a row exactly when `cmd & mask = match` and, for FXLD, `cmd[27:20] <= 64`; and
every command is of some row. -/
def Obligations.DecoderAgreesWithMaskAndMatch : Prop :=
  (∀ row ∈ rows, ∀ w : CmdWord, (∃ i, decode w = .command i ∧ mnemonic i = row.1) ↔
    (w &&& row.2.1 = row.2.2 ∧ (row.1 = "FXLD" → w.toNat / 2 ^ 20 % 2 ^ 8 ≤ 64))) ∧
  ∀ i : Instr, mnemonic i ∈ rows.map Prod.fst

/-- R67, R68, R70: an `op` value outside the thirteen, a nonzero `z` field, a nonzero field the format does not
use, and an FXLD immediate of 65 to 255 each make a word illegal. -/
def Obligations.ReservedWordsAreIllegal : Prop :=
  ∀ w : CmdWord,
    (w.toNat % 2 ^ 8 ∉ [0x01, 0x02, 0x03, 0x04, 0x08, 0x09, 0x0A, 0x0B, 0x10, 0x11, 0x18, 0x19, 0x20] →
      decode w = .illegal .undefinedOp) ∧
    (w.toNat / 2 ^ 28 ≠ 0 → ∃ why, decode w = .illegal why) ∧
    (w.toNat % 2 ^ 8 = 0x01 → w.toNat / 2 ^ 12 % 2 ^ 8 ≠ 0 → ∃ why, decode w = .illegal why) ∧
    (w.toNat % 2 ^ 8 ∈ [0x02, 0x18, 0x19, 0x20] → w.toNat / 2 ^ 16 % 2 ^ 12 ≠ 0 → ∃ why, decode w = .illegal why) ∧
    (w.toNat % 2 ^ 8 ∈ [0x08, 0x09] → w.toNat / 2 ^ 12 % 2 ^ 16 ≠ 0 → ∃ why, decode w = .illegal why) ∧
    (w.toNat % 2 ^ 8 ∈ [0x03, 0x04, 0x0A, 0x0B] → w.toNat / 2 ^ 8 % 2 ^ 4 ≠ 0 ∨ w.toNat / 2 ^ 16 % 2 ^ 12 ≠ 0 →
      ∃ why, decode w = .illegal why) ∧
    (w.toNat % 2 ^ 8 ∈ [0x10, 0x11] → w.toNat / 2 ^ 20 % 2 ^ 8 ≠ 0 → ∃ why, decode w = .illegal why) ∧
    (w.toNat % 2 ^ 8 = 0x01 → 65 ≤ w.toNat / 2 ^ 20 % 2 ^ 8 → ∃ why, decode w = .illegal why)

/-! ## Steps, reset and the halted state (spec/20_memory.md, 60_exceptions.md, 70_reset_and_hazards.md) -/

/-- A presented word that decodes to a command makes the step run exactly that command, on the state in which the
transaction's words stand on the input ports and the host's event is used up (R15, R41, R66). -/
def Obligations.StepRunsTheDecodedCommand : Prop :=
  ∀ (s : State) (c : CmdWord) (w n : Word) (rest : List HostEvent) (i : Instr),
    s.pending = .command c w n :: rest → decode c = .command i →
    step s = exec i { s with pending := rest, cmd := c, wdata := w, rnd := n }

/-- R69: an illegal word presented while `HALT = 0` halts the unit with `CAUSE = 3` and `FCMD` the word; no register
changes, no response, no draw. -/
def Obligations.IllegalWordHaltsTheUnit : Prop :=
  ∀ (s : State) (c : CmdWord) (w n : Word) (rest : List HostEvent) (why : Illegal),
    s.halt = false → s.pending = .command c w n :: rest → decode c = .illegal why →
    ∃ t, step s = .next t ∧ Faulted 3 0 { s with pending := rest, cmd := c, wdata := w, rnd := n } t

/-- R207: while `HALT = 1` every command, legal or not, is ignored: the state does not change, there is no response
and no draw is taken. -/
def Obligations.HaltedUnitIgnoresEveryCommand : Prop :=
  ∀ s : State, s.halt = true →
    (∀ i : Instr, exec i s = .next { s with rdata := none }) ∧
    ∀ (c : CmdWord) (w n : Word) (rest : List HostEvent), s.pending = .command c w n :: rest →
      ∃ t, step s = .next t ∧ SameRegisters s t ∧ SameStatus s t ∧ t.cfg = s.cfg ∧ t.pending = rest ∧
        t.rdata = none ∧ t.drawsTaken = s.drawsTaken

/-- R213: the only exit from the halted state is reset, which clears the whole state, registers included; until then
`CAUSE`, `FCMD` and the registers keep what the first fault left. -/
def Obligations.OnlyResetLeavesTheHaltedState : Prop :=
  ∀ s t : State, step s = .next t → s.halt = true →
    (t.halt = false → (∃ rest, s.pending = .reset :: rest) ∧ (∀ r : Reg, t.reg r = ⟨0, 0⟩) ∧ t.causePort = 0 ∧
      t.fcmdPort = 0) ∧
    (t.halt = true → SameStatus s t ∧ SameRegisters s t)

/-- R230: `rst` puts every register and the whole status at its reset value, and does not touch the parameters, the
randomness source or the host's further events. The event's place in the host's list is the model's (log 1). -/
def Obligations.ResetEventClearsTheUnit : Prop :=
  ∀ (s : State) (rest : List HostEvent), s.pending = .reset :: rest →
    ∃ t, step s = .next t ∧ (∀ r : Reg, (t.mag r).toNat = 0 ∧ t.prec r = 0) ∧ t.haltPort = 0 ∧ t.causePort = 0 ∧
      t.fcmdPort = 0 ∧ t.rdata = none ∧ t.cfg = s.cfg ∧ t.pending = rest ∧ t.drawsTaken = s.drawsTaken

/-- R37: the values after reset. -/
def Obligations.ResetStateHasTheSpecValues : Prop :=
  (∀ r : Reg, (State.reset.mag r).toNat = 0 ∧ State.reset.prec r = 0) ∧ State.reset.haltPort = 0 ∧
    State.reset.causePort = 0 ∧ State.reset.statusWord = 0 ∧ State.reset.fcmdPort = 0

/-- With nothing presented the unit is idle "with its state held" (R220). That the model takes an idle step is its
own choice (log 3). -/
def Obligations.IdleUnitHoldsItsState : Prop :=
  ∀ s : State, s.pending = [] → step s = .next s

/-- Every step ends, in a next state: no command, word, data or draw stops the unit (R15, R155, R240). Three parts are
the model's, not the spec's: that there is a step with nothing presented is its choice (log 3), that a fault of the unit
is a next state is deduced (log 10), and that FXEXPS always ends rests on a source that always delivers its draw, deduced
and unsafe (log 19): R240 says that without a draw "`FXEXPS` never completes". -/
def Obligations.EveryStepAnswersANextState : Prop :=
  (∀ s : State, ∃ t, step s = .next t) ∧ ∀ (i : Instr) (s : State), ∃ t, exec i s = .next t

/-- The host's events take effect one at a time, in the order presented (R41, R51). The list is the model's form of the
host (log 1), and that an empty one is stepped over is its choice (log 3). -/
def Obligations.EventsAreTakenInOrder : Prop :=
  ∀ s t : State, step s = .next t → t.pending = s.pending.tail

/-- R36: no command, and no reset, changes a parameter. -/
def Obligations.ParametersNeverChange : Prop :=
  ∀ s t : State, step s = .next t → t.cfg = s.cfg

/-- A run of commands that ends with `HALT = 0` was never halted on the way (R207, R239): no later command can
hide a fault. -/
def Obligations.SuccessfulRunWasNeverHalted : Prop :=
  ∀ (k : Nat) (s : State), (∀ e ∈ s.pending, e ≠ .reset) → RunSucceeds k s → ∀ j ≤ k, RunSucceeds j s

/-! ## Moving values and the accessors (spec/40_transfer_and_accessors.md) -/

/-- R100: FXLD. -/
def Obligations.FxldLoadsWordAndPrecision : Prop :=
  ∀ (rd : Reg) (imm : BitVec 8),
    (imm.toNat ≤ 64 → EncodedAs (.fxld rd imm) (word 0x01 rd 0 0 imm.toNat) ∧
      ∀ s : State, s.halt = false → ∃ t, exec (.fxld rd imm) s = .next t ∧ t.mag rd = s.wdata ∧
        t.prec rd = imm.toNat ∧ OnlyWrites rd 0 s t) ∧
    (64 < imm.toNat → (∀ v, decode v ≠ .command (.fxld rd imm)) ∧
      decode (word 0x01 rd 0 0 imm.toNat) = .illegal .precisionAbove64 ∧
      ∀ s : State, s.halt = false → ∃ t, exec (.fxld rd imm) s = .next t ∧ Faulted 3 0 s t)

/-- R101: FXMOV, also when `rd = ra`. -/
def Obligations.FxmovCopiesTheValue : Prop :=
  ∀ rd ra : Reg, EncodedAs (.fxmov rd ra) (word 0x02 rd ra 0 0) ∧
    ∀ s : State, s.halt = false → ∃ t, exec (.fxmov rd ra) s = .next t ∧ t.reg rd = s.reg ra ∧ OnlyWrites rd 0 s t ∧
      (rd = ra → SameRegisters s t)

/-- R102: FXRDM. -/
def Obligations.FxrdmRespondsWithTheMagnitude : Prop :=
  ∀ ra : Reg, EncodedAs (.fxrdm ra) (word 0x03 0 ra 0 0) ∧
    ∀ s : State, s.halt = false → ∃ t, exec (.fxrdm ra) s = .next t ∧ OnlyResponds (s.mag ra) s t

/-- R103: FXRDP, zero-extended. -/
def Obligations.FxrdpRespondsWithThePrecision : Prop :=
  ∀ ra : Reg, EncodedAs (.fxrdp ra) (word 0x04 0 ra 0 0) ∧
    ∀ s : State, s.halt = false → ∃ t v, exec (.fxrdp ra) s = .next t ∧ OnlyResponds v s t ∧ v.toNat = s.prec ra

/-- R104: FXSETI, bit by bit: bits `p-1:0` keep their old values, bits `63:p` become bits `63-p:0` of `wdata`. -/
def Obligations.FxsetiReplacesTheIntegralBits : Prop :=
  ∀ rd : Reg, EncodedAs (.fxseti rd) (word 0x08 rd 0 0 0) ∧
    ∀ s : State, s.halt = false → ∃ t, exec (.fxseti rd) s = .next t ∧ t.fb rd = s.fb rd ∧ OnlyWrites rd 0 s t ∧
      ∀ j < 64, (t.mag rd).getLsbD j =
        if j < s.prec rd then (s.mag rd).getLsbD j else s.wdata.getLsbD (j - s.prec rd)

/-- R105: FXSETD, bit by bit: bits `63:p` keep their old values, bits `p-1:0` become bits `p-1:0` of `wdata`. -/
def Obligations.FxsetdReplacesTheFractionalBits : Prop :=
  ∀ rd : Reg, EncodedAs (.fxsetd rd) (word 0x09 rd 0 0 0) ∧
    ∀ s : State, s.halt = false → ∃ t, exec (.fxsetd rd) s = .next t ∧ t.fb rd = s.fb rd ∧ OnlyWrites rd 0 s t ∧
      ∀ j < 64, (t.mag rd).getLsbD j = if j < s.prec rd then s.wdata.getLsbD j else (s.mag rd).getLsbD j

/-- R106: FXGETI responds with `mag >> p`. -/
def Obligations.FxgetiRespondsWithTheIntegralPart : Prop :=
  ∀ ra : Reg, EncodedAs (.fxgeti ra) (word 0x0A 0 ra 0 0) ∧
    ∀ s : State, s.halt = false → ∃ t v, exec (.fxgeti ra) s = .next t ∧ OnlyResponds v s t ∧
      v.toNat = (s.mag ra).toNat / 2 ^ s.prec ra

/-- R107: FXGETD responds with `mag mod 2^p`. -/
def Obligations.FxgetdRespondsWithTheFractionalField : Prop :=
  ∀ ra : Reg, EncodedAs (.fxgetd ra) (word 0x0B 0 ra 0 0) ∧
    ∀ s : State, s.halt = false → ∃ t v, exec (.fxgetd ra) s = .next t ∧ OnlyResponds v s t ∧
      v.toNat = (s.mag ra).toNat % 2 ^ s.prec ra

/-- R109: what a setter stored the getter of the same half returns, and the other half is unchanged; and the two
halves make up the magnitude. -/
def Obligations.SetThenGetRoundTrips : Prop :=
  ∀ (r : Reg) (s : State), s.halt = false → s.prec r ≤ 64 →
    ∃ gi gd : Word, (∃ u, exec (.fxgeti r) s = .next u ∧ u.rdata = some gi) ∧
      (∃ u, exec (.fxgetd r) s = .next u ∧ u.rdata = some gd) ∧
      (s.mag r).toNat = gi.toNat * 2 ^ s.prec r + gd.toNat ∧
      (∃ t, exec (.fxseti r) s = .next t ∧
        (∃ u v, exec (.fxgeti r) t = .next u ∧ u.rdata = some v ∧ v.toNat = s.wdata.toNat % 2 ^ (64 - s.prec r)) ∧
        (∃ u, exec (.fxgetd r) t = .next u ∧ u.rdata = some gd)) ∧
      (∃ t, exec (.fxsetd r) s = .next t ∧
        (∃ u v, exec (.fxgetd r) t = .next u ∧ u.rdata = some v ∧ v.toNat = s.wdata.toNat % 2 ^ s.prec r) ∧
        (∃ u, exec (.fxgeti r) t = .next u ∧ u.rdata = some gi))

/-- R110: the accessors at the two boundary precisions. -/
def Obligations.AccessorsAtBoundaryPrecisions : Prop :=
  ∀ (r : Reg) (s : State), s.halt = false →
    (s.prec r = 0 →
      (∃ t, exec (.fxseti r) s = .next t ∧ t.mag r = s.wdata) ∧ (∃ t, exec (.fxsetd r) s = .next t ∧ t.mag r = s.mag r) ∧
      (∃ t, exec (.fxgeti r) s = .next t ∧ t.rdata = some (s.mag r)) ∧ (∃ t, exec (.fxgetd r) s = .next t ∧ t.rdata = some 0)) ∧
    (s.prec r = 64 →
      (∃ t, exec (.fxseti r) s = .next t ∧ t.mag r = s.mag r) ∧ (∃ t, exec (.fxsetd r) s = .next t ∧ t.mag r = s.wdata) ∧
      (∃ t, exec (.fxgeti r) s = .next t ∧ t.rdata = some 0) ∧ (∃ t, exec (.fxgetd r) s = .next t ∧ t.rdata = some (s.mag r)))

/-! ## Multiply and divide (spec/41_multiply_divide.md) -/

/-- R130 and R132: FXMUL stores `((a * b) >> p) mod 2^64` at precision `p` when the precisions agree, and raises
PrecisionMismatch whatever the magnitudes when they do not. -/
def Obligations.FxmulStoresTheTruncatedProduct : Prop :=
  ∀ rd ra rb : Reg, EncodedAs (.fxmul rd ra rb) (word 0x10 rd ra rb 0) ∧
    ∀ s : State, s.halt = false →
      (s.prec ra = s.prec rb → ∃ t, exec (.fxmul rd ra rb) s = .next t ∧ OnlyWrites rd 0 s t ∧ t.fb rd = s.fb ra ∧
        (t.mag rd).toNat = (s.mag ra).toNat * (s.mag rb).toNat / 2 ^ s.prec ra % 2 ^ 64) ∧
      (s.prec ra ≠ s.prec rb → ∃ t, exec (.fxmul rd ra rb) s = .next t ∧ Faulted 1 0 s t)

/-- R134 and R136: FXDIV stores `((a << p) div b) mod 2^64` at precision `p`; unequal precisions raise
PrecisionMismatch, whatever the divisor; a zero divisor raises DivideByZero. -/
def Obligations.FxdivStoresTheTruncatedQuotient : Prop :=
  ∀ rd ra rb : Reg, EncodedAs (.fxdiv rd ra rb) (word 0x11 rd ra rb 0) ∧
    ∀ s : State, s.halt = false →
      (s.prec ra = s.prec rb → s.mag rb ≠ 0 → ∃ t, exec (.fxdiv rd ra rb) s = .next t ∧ OnlyWrites rd 0 s t ∧
        t.fb rd = s.fb ra ∧
        (t.mag rd).toNat = (s.mag ra).toNat * 2 ^ s.prec ra / (s.mag rb).toNat % 2 ^ 64) ∧
      (s.prec ra = s.prec rb → s.mag rb = 0 → ∃ t, exec (.fxdiv rd ra rb) s = .next t ∧ Faulted 2 0 s t) ∧
      (s.prec ra ≠ s.prec rb → ∃ t, exec (.fxdiv rd ra rb) s = .next t ∧ Faulted 1 0 s t)

/-- R133: the laws (a) to (g) of `fx_mul` and its worked values. -/
def Obligations.MultiplyLaws : Prop :=
  (∀ (a b : Word) (p : Nat), fxMul 0 b p = 0 ∧ fxMul a 0 p = 0 ∧ fxMul a b p = fxMul b a p ∧
    (p ≤ 63 → fxMul a (BitVec.ofNat 64 (2 ^ p)) p = a) ∧
    (a.toNat * b.toNat < 2 ^ p → fxMul a b p = 0) ∧
    (2 ^ 64 ≤ a.toNat * b.toNat / 2 ^ p ↔ 2 ^ (64 + p) ≤ a.toNat * b.toNat) ∧
    (fxMul a b p).toNat = a.toNat * b.toNat / 2 ^ p % 2 ^ 64 ∧
    (p = 64 → (fxMul a b p).toNat = a.toNat * b.toNat / 2 ^ 64) ∧
    (p = 0 → fxMul a b p = a * b)) ∧
  (∃ (a b c : Word) (p : Nat), p ≤ 64 ∧ fxMul (fxMul a b p) c p ≠ fxMul a (fxMul b c p) p) ∧
  (∀ p, 1 ≤ p → fxMul 1 1 p = 0) ∧ fxMul 0x100000000 0x100000000 32 = 0x100000000 ∧
  fxMul 0xFFFFFFFFFFFFFFFF 0xFFFFFFFFFFFFFFFF 32 = 0xFFFFFFFE00000000 ∧
  fxMul 0xFFFFFFFFFFFFFFFF 0xFFFFFFFFFFFFFFFF 0 = 1 ∧
  fxMul 0xFFFFFFFFFFFFFFFF 0xFFFFFFFFFFFFFFFF 64 = 0xFFFFFFFFFFFFFFFE ∧
  fxMul 0x8000000000000000 0x0000000200000000 32 = 0 ∧ fxMul 1 0x0000000180000000 32 = 1

/-- R137: the laws (a) to (i) of `fx_div`, with their examples. -/
def Obligations.DivideLaws : Prop :=
  (∀ (a b : Word) (p : Nat), fxDiv a 0 p = .fault .divideByZero ∧
    (p ≤ 63 → fxDiv a (BitVec.ofNat 64 (2 ^ p)) p = .value a) ∧
    (a ≠ 0 → p ≤ 63 → fxDiv a a p = .value (BitVec.ofNat 64 (2 ^ p))) ∧
    (a ≠ 0 → fxDiv a a 64 = .value 0) ∧
    (b ≠ 0 → fxDiv 0 b p = .value 0 ∧ (a.toNat * 2 ^ p < b.toNat → fxDiv a b p = .value 0) ∧
      (∃ q, fxDiv a b p = .value q ∧ q.toNat = a.toNat * 2 ^ p / b.toNat % 2 ^ 64) ∧
      (∃ q, fxDiv a b 0 = .value q ∧ q.toNat = a.toNat / b.toNat) ∧
      (2 ^ 64 ≤ a.toNat * 2 ^ 64 / b.toNat ↔ b.toNat ≤ a.toNat))) ∧
  fxDiv 1 0x0000000180000000 32 = .value 0 ∧ fxDiv 0xFFFFFFFFFFFFFFFF 1 32 = .value 0xFFFFFFFF00000000 ∧
  fxDiv 0xFFFFFFFFFFFFFFFF 1 64 = .value 0 ∧ fxDiv 7 2 0 = .value 3 ∧ fxDiv 1 2 64 = .value 0x8000000000000000 ∧
  fxDiv 0x0000000100000000 0x0000000300000000 32 = .value 0x0000000055555555

/-- R139: when nothing overflows, dividing a product by its second factor gives at most the first factor, and
exactly the first factor when and only when the multiply discarded nothing; with the rule's counterexample. -/
def Obligations.DivideUndoesMultiplyOnlyWithoutRounding : Prop :=
  (∀ (a b : Word) (p : Nat), p ≤ 64 → b ≠ 0 → a.toNat * b.toNat / 2 ^ p < 2 ^ 64 →
    ∃ q, fxDiv (fxMul a b p) b p = .value q ∧ q.toNat ≤ a.toNat ∧
      (q = a ↔ a.toNat * b.toNat % 2 ^ p = 0)) ∧
  fxMul 1 0x0000000180000000 32 = 1 ∧ fxDiv 1 0x0000000180000000 32 = .value 0

/-! ## The logarithms (spec/42_logarithm.md) -/

/-- R157: FXLOG2 stores `fx_log2` at the source's precision, never faulting. -/
def Obligations.Fxlog2StoresTheLogarithm : Prop :=
  ∀ rd ra : Reg, EncodedAs (.fxlog2 rd ra) (word 0x18 rd ra 0 0) ∧
    ∀ s : State, s.halt = false → ∃ t, exec (.fxlog2 rd ra) s = .next t ∧ OnlyWrites rd 0 s t ∧
      t.mag rd = fxLog2 s.cfg (s.mag ra) (s.prec ra) ∧ t.fb rd = s.fb ra

/-- R204 and R205: a precision outside `[1, 63]` and a zero magnitude both store `SENTINEL`, at the source's
precision, and the unit continues. -/
def Obligations.LogarithmOutsideItsDomainStoresTheSentinel : Prop :=
  ∀ (rd ra : Reg) (s : State), s.halt = false → s.prec ra = 0 ∨ 64 ≤ s.prec ra ∨ s.mag ra = 0 →
    ∃ t, exec (.fxlog2 rd ra) s = .next t ∧ t.reg rd = ⟨s.cfg.sentinel, s.fb ra⟩ ∧ OnlyWrites rd 0 s t

/-- The two loops of step 3 normalise the input into the window `[2^p, 2^(p+1))` and leave `(k - p)` units in the
accumulator, within the turns R155 allows them: `p` for loop 3a and `63 - p` for loop 3b (R152, R155). That more
turns change nothing says the model's bound on them is harmless (log 17). -/
def Obligations.NormalisationReachesTheWindow : Prop :=
  ∀ (x : Word) (p n m : Nat), 1 ≤ p → p ≤ 63 → x ≠ 0 → p ≤ n → 63 - p ≤ m →
    (2 ^ p ≤ normalised x.toNat p ∧ normalised x.toNat p < 2 ^ (p + 1)) ∧
    halveIntoWindow (2 ^ p) m (doubleIntoWindow (2 ^ p) n x.toNat 0).1 (doubleIntoWindow (2 ^ p) n x.toNat 0).2 =
      (normalised x.toNat p, BitVec.ofInt 64 (((Nat.log2 x.toNat : Int) - p) * 2 ^ p))

/-- The logarithm without its loops (R150, R152, R153, R154): the stored word is `((k - p) * 2^p + f) mod 2^64` with
`k` the position of the input's highest set bit and `f` a fraction below `2^p` whose bits, most significant first,
are the outcomes of the `p` squaring tests. -/
def Obligations.LogarithmIsExponentAndSquaringTests : Prop :=
  ∀ (rd ra : Reg) (s : State), s.halt = false → 1 ≤ s.prec ra → s.prec ra ≤ 63 → s.mag ra ≠ 0 →
    ∃ (t : State) (f : Nat), exec (.fxlog2 rd ra) s = .next t ∧ f < 2 ^ s.prec ra ∧
      t.mag rd = BitVec.ofInt 64 (((Nat.log2 (s.mag ra).toNat : Int) - s.prec ra) * 2 ^ s.prec ra + f) ∧
      ∀ i < s.prec ra, f.testBit (s.prec ra - 1 - i) =
        decide (squareReaches (s.prec ra) (mantissa (s.prec ra) (normalised (s.mag ra).toNat (s.prec ra)) i))

/-- The logarithm of `2^k` is exactly `k - p` units; so it is 0 for 1.0 and one unit for 2.0 (R154, R158). -/
def Obligations.LogarithmIsExactOnPowersOfTwo : Prop :=
  ∀ (rd ra : Reg) (s : State) (k : Nat), s.halt = false → 1 ≤ s.prec ra → s.prec ra ≤ 63 → k < 64 →
    (s.mag ra).toNat = 2 ^ k →
    ∃ t, exec (.fxlog2 rd ra) s = .next t ∧ t.fb rd = s.fb ra ∧
      t.mag rd = BitVec.ofInt 64 (((k : Int) - s.prec ra) * 2 ^ s.prec ra) ∧
      (k = s.prec ra → t.mag rd = 0) ∧ (k = s.prec ra + 1 → (t.mag rd).toNat = 2 ^ s.prec ra)

/-- R161 with R159 and R160: FXLN at precision 32 stores the negated log2 word times `LN2_MAG`, shifted and
truncated; at any other precision it raises PrecisionMismatch. -/
def Obligations.FxlnStoresTheScaledNegatedLogarithm : Prop :=
  ∀ rd ra : Reg, EncodedAs (.fxln rd ra) (word 0x19 rd ra 0 0) ∧
    ∀ s : State, s.halt = false →
      (s.prec ra = 32 → ∃ t, exec (.fxln rd ra) s = .next t ∧ OnlyWrites rd 0 s t ∧ t.prec rd = 32 ∧
        (t.mag rd).toNat =
          (2 ^ 64 - (fxLog2 s.cfg (s.mag ra) 32).toNat) % 2 ^ 64 * s.cfg.ln2Mag.toNat / 2 ^ 32 % 2 ^ 64) ∧
      (s.prec ra ≠ 32 → ∃ t, exec (.fxln rd ra) s = .next t ∧ Faulted 1 0 s t)

/-- FXLN of 1.0 stores 0 (R163 (a)), and FXLN of a zero magnitude carries the sentinel through the negation and the
multiply, faulting nothing (R164); with the all-ones sentinel and `LN2_MAG < 2^32` that word is 0. -/
def Obligations.NaturalLogOfOneAndOfZero : Prop :=
  ∀ (rd ra : Reg) (s : State), s.halt = false → s.prec ra = 32 →
    (s.mag ra = 0x0000000100000000 → ∃ t, exec (.fxln rd ra) s = .next t ∧ t.reg rd = ⟨0, 32⟩) ∧
    (s.mag ra = 0 → ∃ t, exec (.fxln rd ra) s = .next t ∧ OnlyWrites rd 0 s t ∧
      (t.mag rd).toNat = (2 ^ 64 - s.cfg.sentinel.toNat) % 2 ^ 64 * s.cfg.ln2Mag.toNat / 2 ^ 32 % 2 ^ 64 ∧
      (s.cfg.sentinel = 0xFFFFFFFFFFFFFFFF → s.cfg.ln2Mag.toNat < 2 ^ 32 → t.mag rd = 0))

/-- For an input in `(0, 1.0]` the log2 word is zero or a negative amount of at most 32 units, and FXLN stores that
amount times `LN2_MAG`, nothing truncated, so at most 32 times `LN2_MAG` (R163 (a) and (b), R184). The bound on
`LN2_MAG` is the statement's own; the spec's default meets it. -/
def Obligations.NaturalLogBelowOneIsNonnegativeAndBounded : Prop :=
  ∀ (rd ra : Reg) (s : State), s.halt = false → s.prec ra = 32 → s.mag ra ≠ 0 → (s.mag ra).toNat ≤ 2 ^ 32 →
    s.cfg.ln2Mag.toNat < 2 ^ 59 →
    ∃ (t : State) (amount : Nat), exec (.fxln rd ra) s = .next t ∧ signedW (fxLog2 s.cfg (s.mag ra) 32) = -amount ∧
      amount ≤ 32 * 2 ^ 32 ∧ (t.mag rd).toNat = amount * s.cfg.ln2Mag.toNat / 2 ^ 32 ∧
      (t.mag rd).toNat ≤ 32 * s.cfg.ln2Mag.toNat

/-! ## The sampler (spec/43_exponential_sampler.md) -/

/-- R180, R182 and R183: FXEXPS takes one draw, then in this order: DivideByZero if the shifted `M` is zero;
PrecisionMismatch if the precision is not 32; DivideByZero if the rate is zero; else it stores the quotient of
`fx_ln(u)` by the rate at precision 32. -/
def Obligations.FxexpsComposesDivideLogDivide : Prop :=
  ∀ rd ra : Reg, EncodedAs (.fxexps rd ra) (word 0x20 rd ra 0 0) ∧
    ∀ s : State, s.halt = false →
      let max := s.cfg.maxDraw.toNat * 2 ^ s.prec ra % 2 ^ 64
      let r := s.rnd.toNat * 2 ^ s.prec ra % 2 ^ 64
      let u := r * 2 ^ s.prec ra / max % 2 ^ 64
      (max = 0 → ∃ t, exec (.fxexps rd ra) s = .next t ∧ Faulted 2 1 s t) ∧
      (max ≠ 0 → s.prec ra ≠ 32 → ∃ t, exec (.fxexps rd ra) s = .next t ∧ Faulted 1 1 s t) ∧
      (max ≠ 0 → s.prec ra = 32 → s.mag ra = 0 → ∃ t, exec (.fxexps rd ra) s = .next t ∧ Faulted 2 1 s t) ∧
      (max ≠ 0 → s.prec ra = 32 → s.mag ra ≠ 0 → ∃ t, exec (.fxexps rd ra) s = .next t ∧ OnlyWrites rd 1 s t ∧
        t.prec rd = 32 ∧
        (t.mag rd).toNat = (fxLn s.cfg (BitVec.ofNat 64 u)).toNat * 2 ^ 32 / (s.mag ra).toNat % 2 ^ 64)

/-- R184: with `1 <= M < 2^32` and the draw within its contract, `u` is exactly `(ran * 2^32) div M`, in
`[0, 2^32]` and `2^32` exactly when `ran = M`. -/
def Obligations.SamplerReducesWhenTheMaximumFits : Prop :=
  ∀ (rd ra : Reg) (s : State), s.halt = false → s.prec ra = 32 → s.mag ra ≠ 0 →
    1 ≤ s.cfg.maxDraw.toNat → s.cfg.maxDraw.toNat < 2 ^ 32 → s.rnd.toNat ≤ s.cfg.maxDraw.toNat →
    let u := s.rnd.toNat * 2 ^ 32 / s.cfg.maxDraw.toNat
    u ≤ 2 ^ 32 ∧ (u = 2 ^ 32 ↔ s.rnd = s.cfg.maxDraw) ∧
    ∃ t, exec (.fxexps rd ra) s = .next t ∧
      (t.mag rd).toNat = (fxLn s.cfg (BitVec.ofNat 64 u)).toNat * 2 ^ 32 / (s.mag ra).toNat % 2 ^ 64

/-- R185: a draw equal to `M` stores zero, for every `LN2_MAG`, every `SENTINEL`, every non-zero rate and every `M`
whose shifted word is not zero. -/
def Obligations.MaximumDrawGivesZeroDelay : Prop :=
  ∀ (rd ra : Reg) (s : State), s.halt = false → s.prec ra = 32 → s.mag ra ≠ 0 → s.rnd = s.cfg.maxDraw →
    s.cfg.maxDraw.toNat * 2 ^ 32 % 2 ^ 64 ≠ 0 →
    ∃ t, exec (.fxexps rd ra) s = .next t ∧ t.reg rd = ⟨0, 32⟩ ∧ OnlyWrites rd 1 s t

/-- The zero draw is not special-cased: `u = 0`, the sentinel flows through the natural log, and the quotient is
stored with no fault (R188); 0 with the all-ones sentinel and `LN2_MAG < 2^32`, and with the alternative sentinel,
the default `LN2_MAG` and rate 1.0 the enormous word the rule names. -/
def Obligations.ZeroDrawFlowsThroughTheSentinel : Prop :=
  ∀ (rd ra : Reg) (s : State), s.halt = false → s.prec ra = 32 → s.mag ra ≠ 0 → s.rnd = 0 →
    s.cfg.maxDraw.toNat * 2 ^ 32 % 2 ^ 64 ≠ 0 →
    ∃ t, exec (.fxexps rd ra) s = .next t ∧ OnlyWrites rd 1 s t ∧
      (t.mag rd).toNat = (2 ^ 64 - s.cfg.sentinel.toNat) % 2 ^ 64 * s.cfg.ln2Mag.toNat / 2 ^ 32 % 2 ^ 64 * 2 ^ 32 /
        (s.mag ra).toNat % 2 ^ 64 ∧
      (s.cfg.sentinel = 0xFFFFFFFFFFFFFFFF → s.cfg.ln2Mag.toNat < 2 ^ 32 → t.mag rd = 0) ∧
      (s.cfg.sentinel = 0x7FFFFFFFFFFFFFFF → s.cfg.ln2Mag = 0xB17217F7 → s.mag ra = 0x0000000100000000 →
        t.mag rd = 0x58B90BFB80000000)

/-- At precision 32 the first divide faults on every draw exactly when `M` is a multiple of `2^32` (R186). -/
def Obligations.SamplerFaultsOnEveryDrawWhenTheMaximumShiftsAway : Prop :=
  ∀ (rd ra : Reg) (s : State), s.halt = false → s.prec ra = 32 → s.mag ra ≠ 0 →
    (s.cfg.maxDraw.toNat % 2 ^ 32 = 0 → ∃ t, exec (.fxexps rd ra) s = .next t ∧ Faulted 2 1 s t) ∧
    (s.cfg.maxDraw.toNat % 2 ^ 32 ≠ 0 → ∃ t, exec (.fxexps rd ra) s = .next t ∧ t.halt = false)

/-- FXEXPS is the composition of the other blocks (R180): with `r` and `MAX` loaded in registers `a` and `m`, a
divide, a natural log and a divide by the rate in `q`, issued as commands, end halted with the same cause as one
FXEXPS with the same draw, or leave the same word and precision. -/
def Obligations.SamplerEqualsItsBlocksIssuedByHand : Prop :=
  ∀ (s : State) (a m q d e : Reg), s.halt = false → d ≠ q → s.prec q = 32 →
    s.reg a = ⟨BitVec.ofNat 64 (s.rnd.toNat * 2 ^ 32), 32⟩ →
    s.reg m = ⟨BitVec.ofNat 64 (s.cfg.maxDraw.toNat * 2 ^ 32), 32⟩ →
    ∃ s1 s2 s3 t, exec (.fxdiv d a m) s = .next s1 ∧ exec (.fxln d d) s1 = .next s2 ∧
      exec (.fxdiv d d q) s2 = .next s3 ∧ exec (.fxexps e q) s = .next t ∧
      s3.halt = t.halt ∧ s3.cause = t.cause ∧ (t.halt = false → s3.reg d = t.reg e)

/-! ## Faults, frames and the ports, over all commands -/

/-- Which command raises which fault, with the priorities among them: a running well-formed command halts exactly on
its PrecisionMismatch or DivideByZero condition, with that cause (R209, R221). -/
def Obligations.FaultConditionsByCommand : Prop :=
  ∀ (i : Instr) (s : State), i.WellFormed → s.halt = false →
    ∃ t, exec i s = .next t ∧ (t.halt = true ↔ Mismatch s i ∨ ZeroDivisor s i) ∧
      (Mismatch s i → t.causePort = 1) ∧ (ZeroDivisor s i → t.causePort = 2) ∧
      (¬ Mismatch s i → ¬ ZeroDivisor s i → t.causePort = s.causePort)

/-- R206: a command that faults sets `HALT`, writes a non-zero cause and its own word, and changes nothing else: no
register, no response, the parameters and ports as before; a legal FXEXPS, and no other word, has consumed a draw.
First per command, then per step, illegal words included. -/
def Obligations.FaultEntryWritesOnlyTheStatus : Prop :=
  (∀ (i : Instr) (s t : State), s.halt = false → exec i s = .next t → t.halt = true →
    ∃ code, 1 ≤ code ∧ code ≤ 3 ∧ Faulted code (drawCount i) s t) ∧
  ∀ s t : State, s.halt = false → step s = .next t → t.halt = true →
    ∃ c w n rest code draws, s.pending = .command c w n :: rest ∧ 1 ≤ code ∧ code ≤ 3 ∧
      Faulted code draws { s with pending := rest, cmd := c, wdata := w, rnd := n } t ∧
      draws = if ∃ rd ra, decode c = .command (.fxexps rd ra) then 1 else 0

/-- A command writes no register but the destination the table of R25 gives it, FXSETI and FXSETD not even its `fb`,
and never a parameter, an input port or the host's further events. -/
def Obligations.EveryCommandWritesOnlyItsDestination : Prop :=
  ∀ (i : Instr) (s t : State), exec i s = .next t →
    (∀ r : Reg, destination i ≠ some r → t.reg r = s.reg r) ∧
    (∀ r : Reg, i = .fxseti r ∨ i = .fxsetd r → t.fb r = s.fb r) ∧ SameSurroundings s t

/-- A command produces a response exactly when it is FXRDM, FXRDP, FXGETI or FXGETD and the unit is not halted; an
illegal word produces none (R42). -/
def Obligations.OnlyReadingCommandsRespond : Prop :=
  (∀ (i : Instr) (s t : State), exec i s = .next t → (t.rdata.isSome = true ↔ s.halt = false ∧ destination i = none)) ∧
  ∀ (s t : State) (c : CmdWord) (w n : Word) (rest : List HostEvent), s.pending = .command c w n :: rest →
    step s = .next t → (t.rdata.isSome = true ↔ s.halt = false ∧ ∃ i, decode c = .command i ∧ destination i = none)

/-- The four reading commands are idempotent: the same command again responds the same and changes nothing (R50). -/
def Obligations.ReadingCommandsAreIdempotent : Prop :=
  ∀ (i : Instr) (s t : State), destination i = none → exec i s = .next t → exec i t = .next t

/-- A command other than FXLD, FXSETI and FXSETD behaves the same for every `wdata` word (R41). -/
def Obligations.OtherCommandsIgnoreWdata : Prop :=
  ∀ (i : Instr) (s : State) (w : Word), readsWdata i = false →
    ∃ t, exec i s = .next t ∧ exec i { s with wdata := w } = .next { t with wdata := w }

/-- A command other than FXEXPS behaves the same for every word on the randomness port (R44). -/
def Obligations.OtherCommandsIgnoreTheDraw : Prop :=
  ∀ (i : Instr) (s : State) (n : Word), takesDraw i = false →
    ∃ t, exec i s = .next t ∧ exec i { s with rnd := n } = .next { t with rnd := n }

/-- A step asks for exactly one draw when it executes a legal FXEXPS while `HALT = 0`, whether or not that command
faults, and for none otherwise (R44, R181). The counter is the model's own (log 7). -/
def Obligations.OneDrawPerExecutedSample : Prop :=
  (∀ (s t : State) (c : CmdWord) (w n : Word) (rest : List HostEvent), s.pending = .command c w n :: rest →
    step s = .next t →
    (s.halt = false → (∃ rd ra, decode c = .command (.fxexps rd ra)) → t.drawsTaken = s.drawsTaken + 1) ∧
    (s.halt = true ∨ (∀ rd ra, decode c ≠ .command (.fxexps rd ra)) → t.drawsTaken = s.drawsTaken)) ∧
  ∀ s t : State, (∀ c w n rest, s.pending ≠ .command c w n :: rest) → step s = .next t → t.drawsTaken = s.drawsTaken

/-- A register never loaded holds `(0, 0)` and reading it is legal; as a divisor it raises DivideByZero, against
another precision PrecisionMismatch, its log2 is `SENTINEL`, and FXLN and FXEXPS on it fault (R234). -/
def Obligations.UnloadedRegisterBehavesAsZeroAtPrecisionZero : Prop :=
  ∀ (s : State) (rd ra rb : Reg), s.halt = false → s.reg ra = ⟨0, 0⟩ →
    (∃ t, exec (.fxrdm ra) s = .next t ∧ t.rdata = some 0) ∧ (∃ t, exec (.fxrdp ra) s = .next t ∧ t.rdata = some 0) ∧
    (s.prec rb = 0 → ∃ t, exec (.fxdiv rd rb ra) s = .next t ∧ Faulted 2 0 s t) ∧
    (s.prec rb ≠ 0 → (∃ t, exec (.fxmul rd rb ra) s = .next t ∧ Faulted 1 0 s t) ∧
      ∃ t, exec (.fxdiv rd rb ra) s = .next t ∧ Faulted 1 0 s t) ∧
    (∃ t, exec (.fxlog2 rd ra) s = .next t ∧ t.reg rd = ⟨s.cfg.sentinel, 0⟩) ∧
    (∃ t, exec (.fxln rd ra) s = .next t ∧ Faulted 1 0 s t) ∧
    (s.cfg.legal → ∃ t, exec (.fxexps rd ra) s = .next t ∧ Faulted 1 1 s t)

/-! ## Invariants of the step -/

/-- R24: the unit holds `0 <= F[i].fb <= W` for every register at all times. -/
def Obligations.PrecisionsStayInRange : Prop :=
  ∀ s t : State, PrecisionsInRange s → step s = .next t → PrecisionsInRange t

/-- `CAUSE = 0` exactly when `HALT = 0`, and `FCMD` reads 0 while `HALT = 0`, at all times (R30, R31). -/
def Obligations.StatusStaysCoherent : Prop :=
  ∀ s t : State, StatusCoherent s → step s = .next t → StatusCoherent t

/-- `CAUSE` and `FCMD` always describe a fault that can happen: the recorded word is illegal for cause 3, one of
FXMUL, FXDIV, FXLN, FXEXPS for cause 1, one of FXDIV, FXEXPS for cause 2 (R206, R213, R221). -/
def Obligations.RecordedFaultStaysExplained : Prop :=
  ∀ s t : State, FaultExplained s → step s = .next t → FaultExplained t

/-- The three invariants hold at reset (R37). The parameters' legality there rests on the model's choice of `M`
(log 6), so it is not part of this statement. -/
def Obligations.ResetMeetsTheInvariants : Prop :=
  PrecisionsInRange State.reset ∧ StatusCoherent State.reset ∧ FaultExplained State.reset
end

