-- ==== Sys2Proof/Laws/Decode.lean ====
section
/-! SUPPORT. The fields of a command word and of the word an encoder packs (spec/30_encoding.md rules R61, R62). -/

namespace Sys2Proof

@[simp] theorem regOf_fieldOf (r : Reg) : regOf (fieldOf r) = r := rfl
@[simp] theorem fieldOf_regOf (f : BitVec 4) : fieldOf (regOf f) = f := rfl
@[simp] theorem fieldOf_toNat (r : Reg) : (fieldOf r).toNat = r.val := rfl

/-- The one check of `WellFormed` (R63, R70). -/
theorem wellFormed_fxld (rd : Reg) (imm : BitVec 8) : (Instr.fxld rd imm).WellFormed ↔ imm.toNat ≤ 64 :=
  decide_eq_true_iff

/-! Each field as a digit of the word (R61). -/

theorem opField_toNat (w : CmdWord) : (opField w).toNat = w.toNat % 2 ^ 8 := by
  simp [opField, BitVec.extractLsb'_toNat]
theorem rdField_toNat (w : CmdWord) : (rdField w).toNat = w.toNat / 2 ^ 8 % 2 ^ 4 := by
  simp [rdField, BitVec.extractLsb'_toNat, Nat.shiftRight_eq_div_pow]
theorem raField_toNat (w : CmdWord) : (raField w).toNat = w.toNat / 2 ^ 12 % 2 ^ 4 := by
  simp [raField, BitVec.extractLsb'_toNat, Nat.shiftRight_eq_div_pow]
theorem rbField_toNat (w : CmdWord) : (rbField w).toNat = w.toNat / 2 ^ 16 % 2 ^ 4 := by
  simp [rbField, BitVec.extractLsb'_toNat, Nat.shiftRight_eq_div_pow]
theorem immField_toNat (w : CmdWord) : (immField w).toNat = w.toNat / 2 ^ 20 % 2 ^ 8 := by
  simp [immField, BitVec.extractLsb'_toNat, Nat.shiftRight_eq_div_pow]
theorem zField_toNat (w : CmdWord) : (zField w).toNat = w.toNat / 2 ^ 28 := by
  have h := w.isLt
  simp [zField, BitVec.extractLsb'_toNat, Nat.shiftRight_eq_div_pow]
  omega

section Packed

variable (imm : BitVec 8) (rb ra rd : BitVec 4) (op : BitVec 8)

theorem packFields_getLsbD (j : Nat) : (packFields imm rb ra rd op).getLsbD j =
    if j < 8 then op.getLsbD j else if j < 12 then rd.getLsbD (j - 8) else if j < 16 then ra.getLsbD (j - 12)
    else if j < 20 then rb.getLsbD (j - 16) else if j < 28 then imm.getLsbD (j - 20) else false := by
  simp only [packFields, BitVec.getLsbD_append]
  split_ifs <;> first | rfl | omega | simp

@[simp] theorem opField_packFields : opField (packFields imm rb ra rd op) = op := by
  apply BitVec.eq_of_getLsbD_eq
  intro j hj
  simp [opField, packFields_getLsbD, hj]

@[simp] theorem rdField_packFields : rdField (packFields imm rb ra rd op) = rd := by
  apply BitVec.eq_of_getLsbD_eq
  intro j hj
  simp only [rdField, BitVec.getLsbD_extractLsb', packFields_getLsbD, hj, decide_true, Bool.true_and]
  rw [if_neg (by omega), if_pos (by omega), Nat.add_sub_cancel_left]

@[simp] theorem raField_packFields : raField (packFields imm rb ra rd op) = ra := by
  apply BitVec.eq_of_getLsbD_eq
  intro j hj
  simp only [raField, BitVec.getLsbD_extractLsb', packFields_getLsbD, hj, decide_true, Bool.true_and]
  rw [if_neg (by omega), if_neg (by omega), if_pos (by omega), Nat.add_sub_cancel_left]

@[simp] theorem rbField_packFields : rbField (packFields imm rb ra rd op) = rb := by
  apply BitVec.eq_of_getLsbD_eq
  intro j hj
  simp only [rbField, BitVec.getLsbD_extractLsb', packFields_getLsbD, hj, decide_true, Bool.true_and]
  rw [if_neg (by omega), if_neg (by omega), if_neg (by omega), if_pos (by omega), Nat.add_sub_cancel_left]

@[simp] theorem immField_packFields : immField (packFields imm rb ra rd op) = imm := by
  apply BitVec.eq_of_getLsbD_eq
  intro j hj
  simp only [immField, BitVec.getLsbD_extractLsb', packFields_getLsbD, hj, decide_true, Bool.true_and]
  rw [if_neg (by omega), if_neg (by omega), if_neg (by omega), if_neg (by omega), if_pos (by omega),
    Nat.add_sub_cancel_left]

@[simp] theorem zField_packFields : zField (packFields imm rb ra rd op) = 0 := by
  apply BitVec.eq_of_getLsbD_eq
  intro j hj
  simp only [zField, BitVec.getLsbD_extractLsb', packFields_getLsbD, hj, decide_true, Bool.true_and]
  rw [if_neg (by omega), if_neg (by omega), if_neg (by omega), if_neg (by omega), if_neg (by omega)]
  simp

/-- The word as the sum the spec writes: `imm << 20 | rb << 16 | ra << 12 | rd << 8 | op`, `z` zero (R61). -/
theorem packFields_toNat : (packFields imm rb ra rd op).toNat =
    op.toNat + 2 ^ 8 * rd.toNat + 2 ^ 12 * ra.toNat + 2 ^ 16 * rb.toNat + 2 ^ 20 * imm.toNat := by
  simp only [packFields, BitVec.toNat_append]
  simp only [← Nat.shiftLeft_add_eq_or_of_lt rb.isLt, ← Nat.shiftLeft_add_eq_or_of_lt ra.isLt,
    ← Nat.shiftLeft_add_eq_or_of_lt rd.isLt, ← Nat.shiftLeft_add_eq_or_of_lt op.isLt,
    ← Nat.shiftLeft_add_eq_or_of_lt imm.isLt]
  have h0 : (0 : BitVec 4).toNat = 0 := rfl
  simp only [Nat.shiftLeft_eq, h0]
  omega

end Packed

/-- A word whose `z` field is zero is the packing of its other fields. -/
theorem packFields_fields (w : CmdWord) (hz : zField w = 0) :
    packFields (immField w) (rbField w) (raField w) (rdField w) (opField w) = w := by
  apply BitVec.eq_of_getLsbD_eq
  intro j hj
  rw [packFields_getLsbD]
  simp only [immField, rbField, raField, rdField, opField, BitVec.getLsbD_extractLsb']
  split_ifs with h1 h2 h3 h4 h5
  · simp [h1]
  · rw [decide_eq_true (by omega), Bool.true_and]; congr 1; omega
  · rw [decide_eq_true (by omega), Bool.true_and]; congr 1; omega
  · rw [decide_eq_true (by omega), Bool.true_and]; congr 1; omega
  · rw [decide_eq_true (by omega), Bool.true_and]; congr 1; omega
  · have h := congrArg (fun v => BitVec.getLsbD v (j - 28)) hz
    simp only [zField, BitVec.getLsbD_extractLsb', decide_eq_true (show j - 28 < 4 by omega), Bool.true_and] at h
    rw [show 28 + (j - 28) = j by omega] at h
    rw [h]; simp

end Sys2Proof
end

