-- ==== Sys2Proof/Laws/State.lean ====
section
/-! SUPPORT. One lemma per field of State per update: what each shared operation of Machine/Ops.lean leaves in it. -/

namespace Sys2Proof.Machine

variable (s : State)

/-! `State.complete` -/

@[simp] theorem State.complete_F (rd : Reg) (v : FixedPoint) : (s.complete rd v).F = s.F.set rd v := rfl
@[simp] theorem State.complete_halt (rd : Reg) (v : FixedPoint) : (s.complete rd v).halt = s.halt := rfl
@[simp] theorem State.complete_cause (rd : Reg) (v : FixedPoint) : (s.complete rd v).cause = s.cause := rfl
@[simp] theorem State.complete_fcmd (rd : Reg) (v : FixedPoint) : (s.complete rd v).fcmd = s.fcmd := rfl
@[simp] theorem State.complete_cfg (rd : Reg) (v : FixedPoint) : (s.complete rd v).cfg = s.cfg := rfl
@[simp] theorem State.complete_pending (rd : Reg) (v : FixedPoint) : (s.complete rd v).pending = s.pending := rfl
@[simp] theorem State.complete_cmd (rd : Reg) (v : FixedPoint) : (s.complete rd v).cmd = s.cmd := rfl
@[simp] theorem State.complete_wdata (rd : Reg) (v : FixedPoint) : (s.complete rd v).wdata = s.wdata := rfl
@[simp] theorem State.complete_rnd (rd : Reg) (v : FixedPoint) : (s.complete rd v).rnd = s.rnd := rfl
@[simp] theorem State.complete_rdata (rd : Reg) (v : FixedPoint) : (s.complete rd v).rdata = none := rfl
@[simp] theorem State.complete_drawsTaken (rd : Reg) (v : FixedPoint) : (s.complete rd v).drawsTaken = s.drawsTaken := rfl

/-! `State.respond` -/

@[simp] theorem State.respond_F (v : Word) : (s.respond v).F = s.F := rfl
@[simp] theorem State.respond_halt (v : Word) : (s.respond v).halt = s.halt := rfl
@[simp] theorem State.respond_cause (v : Word) : (s.respond v).cause = s.cause := rfl
@[simp] theorem State.respond_fcmd (v : Word) : (s.respond v).fcmd = s.fcmd := rfl
@[simp] theorem State.respond_cfg (v : Word) : (s.respond v).cfg = s.cfg := rfl
@[simp] theorem State.respond_pending (v : Word) : (s.respond v).pending = s.pending := rfl
@[simp] theorem State.respond_cmd (v : Word) : (s.respond v).cmd = s.cmd := rfl
@[simp] theorem State.respond_wdata (v : Word) : (s.respond v).wdata = s.wdata := rfl
@[simp] theorem State.respond_rnd (v : Word) : (s.respond v).rnd = s.rnd := rfl
@[simp] theorem State.respond_rdata (v : Word) : (s.respond v).rdata = some v := rfl
@[simp] theorem State.respond_drawsTaken (v : Word) : (s.respond v).drawsTaken = s.drawsTaken := rfl
@[simp] theorem State.respond_reg (v : Word) (r : Reg) : (s.respond v).reg r = s.reg r := rfl
@[simp] theorem State.respond_mag (v : Word) (r : Reg) : (s.respond v).mag r = s.mag r := rfl
@[simp] theorem State.respond_fb (v : Word) (r : Reg) : (s.respond v).fb r = s.fb r := rfl
@[simp] theorem State.respond_prec (v : Word) (r : Reg) : (s.respond v).prec r = s.prec r := rfl

/-! `State.raise` -/

@[simp] theorem State.raise_F (f : UnitFault) : (s.raise f).F = s.F := rfl
@[simp] theorem State.raise_halt (f : UnitFault) : (s.raise f).halt = true := rfl
@[simp] theorem State.raise_cause (f : UnitFault) : (s.raise f).cause = f.cause := rfl
@[simp] theorem State.raise_fcmd (f : UnitFault) : (s.raise f).fcmd = s.cmd := rfl
@[simp] theorem State.raise_cfg (f : UnitFault) : (s.raise f).cfg = s.cfg := rfl
@[simp] theorem State.raise_pending (f : UnitFault) : (s.raise f).pending = s.pending := rfl
@[simp] theorem State.raise_cmd (f : UnitFault) : (s.raise f).cmd = s.cmd := rfl
@[simp] theorem State.raise_wdata (f : UnitFault) : (s.raise f).wdata = s.wdata := rfl
@[simp] theorem State.raise_rnd (f : UnitFault) : (s.raise f).rnd = s.rnd := rfl
@[simp] theorem State.raise_rdata (f : UnitFault) : (s.raise f).rdata = none := rfl
@[simp] theorem State.raise_drawsTaken (f : UnitFault) : (s.raise f).drawsTaken = s.drawsTaken := rfl
@[simp] theorem State.raise_reg (f : UnitFault) (r : Reg) : (s.raise f).reg r = s.reg r := rfl
@[simp] theorem State.raise_mag (f : UnitFault) (r : Reg) : (s.raise f).mag r = s.mag r := rfl
@[simp] theorem State.raise_fb (f : UnitFault) (r : Reg) : (s.raise f).fb r = s.fb r := rfl
@[simp] theorem State.raise_prec (f : UnitFault) (r : Reg) : (s.raise f).prec r = s.prec r := rfl

/-! `State.ignore` -/

@[simp] theorem State.ignore_F : (s.ignore).F = s.F := rfl
@[simp] theorem State.ignore_halt : (s.ignore).halt = s.halt := rfl
@[simp] theorem State.ignore_cause : (s.ignore).cause = s.cause := rfl
@[simp] theorem State.ignore_fcmd : (s.ignore).fcmd = s.fcmd := rfl
@[simp] theorem State.ignore_cfg : (s.ignore).cfg = s.cfg := rfl
@[simp] theorem State.ignore_pending : (s.ignore).pending = s.pending := rfl
@[simp] theorem State.ignore_cmd : (s.ignore).cmd = s.cmd := rfl
@[simp] theorem State.ignore_wdata : (s.ignore).wdata = s.wdata := rfl
@[simp] theorem State.ignore_rnd : (s.ignore).rnd = s.rnd := rfl
@[simp] theorem State.ignore_rdata : (s.ignore).rdata = none := rfl
@[simp] theorem State.ignore_drawsTaken : (s.ignore).drawsTaken = s.drawsTaken := rfl
@[simp] theorem State.ignore_reg (r : Reg) : (s.ignore).reg r = s.reg r := rfl
@[simp] theorem State.ignore_mag (r : Reg) : (s.ignore).mag r = s.mag r := rfl
@[simp] theorem State.ignore_fb (r : Reg) : (s.ignore).fb r = s.fb r := rfl
@[simp] theorem State.ignore_prec (r : Reg) : (s.ignore).prec r = s.prec r := rfl

/-! `State.takeDraw` -/

@[simp] theorem State.takeDraw_F : (s.takeDraw).F = s.F := rfl
@[simp] theorem State.takeDraw_halt : (s.takeDraw).halt = s.halt := rfl
@[simp] theorem State.takeDraw_cause : (s.takeDraw).cause = s.cause := rfl
@[simp] theorem State.takeDraw_fcmd : (s.takeDraw).fcmd = s.fcmd := rfl
@[simp] theorem State.takeDraw_cfg : (s.takeDraw).cfg = s.cfg := rfl
@[simp] theorem State.takeDraw_pending : (s.takeDraw).pending = s.pending := rfl
@[simp] theorem State.takeDraw_cmd : (s.takeDraw).cmd = s.cmd := rfl
@[simp] theorem State.takeDraw_wdata : (s.takeDraw).wdata = s.wdata := rfl
@[simp] theorem State.takeDraw_rnd : (s.takeDraw).rnd = s.rnd := rfl
@[simp] theorem State.takeDraw_rdata : (s.takeDraw).rdata = s.rdata := rfl
@[simp] theorem State.takeDraw_drawsTaken : (s.takeDraw).drawsTaken = s.drawsTaken + 1 := rfl
@[simp] theorem State.takeDraw_reg (r : Reg) : (s.takeDraw).reg r = s.reg r := rfl
@[simp] theorem State.takeDraw_mag (r : Reg) : (s.takeDraw).mag r = s.mag r := rfl
@[simp] theorem State.takeDraw_fb (r : Reg) : (s.takeDraw).fb r = s.fb r := rfl
@[simp] theorem State.takeDraw_prec (r : Reg) : (s.takeDraw).prec r = s.prec r := rfl

/-! `State.resetUnit` -/

@[simp] theorem State.resetUnit_F : (s.resetUnit).F = Vector.replicate 16 FixedPoint.zero := rfl
@[simp] theorem State.resetUnit_halt : (s.resetUnit).halt = false := rfl
@[simp] theorem State.resetUnit_cause : (s.resetUnit).cause = .none := rfl
@[simp] theorem State.resetUnit_fcmd : (s.resetUnit).fcmd = 0 := rfl
@[simp] theorem State.resetUnit_cfg : (s.resetUnit).cfg = s.cfg := rfl
@[simp] theorem State.resetUnit_pending : (s.resetUnit).pending = s.pending := rfl
@[simp] theorem State.resetUnit_cmd : (s.resetUnit).cmd = s.cmd := rfl
@[simp] theorem State.resetUnit_wdata : (s.resetUnit).wdata = s.wdata := rfl
@[simp] theorem State.resetUnit_rnd : (s.resetUnit).rnd = s.rnd := rfl
@[simp] theorem State.resetUnit_rdata : (s.resetUnit).rdata = none := rfl
@[simp] theorem State.resetUnit_drawsTaken : (s.resetUnit).drawsTaken = s.drawsTaken := rfl

/-! `State.accept` -/

@[simp] theorem State.accept_F (l : List HostEvent) (c : CmdWord) (w n : Word) : (s.accept l c w n).F = s.F := rfl
@[simp] theorem State.accept_halt (l : List HostEvent) (c : CmdWord) (w n : Word) : (s.accept l c w n).halt = s.halt := rfl
@[simp] theorem State.accept_cause (l : List HostEvent) (c : CmdWord) (w n : Word) : (s.accept l c w n).cause = s.cause := rfl
@[simp] theorem State.accept_fcmd (l : List HostEvent) (c : CmdWord) (w n : Word) : (s.accept l c w n).fcmd = s.fcmd := rfl
@[simp] theorem State.accept_cfg (l : List HostEvent) (c : CmdWord) (w n : Word) : (s.accept l c w n).cfg = s.cfg := rfl
@[simp] theorem State.accept_pending (l : List HostEvent) (c : CmdWord) (w n : Word) : (s.accept l c w n).pending = l := rfl
@[simp] theorem State.accept_cmd (l : List HostEvent) (c : CmdWord) (w n : Word) : (s.accept l c w n).cmd = c := rfl
@[simp] theorem State.accept_wdata (l : List HostEvent) (c : CmdWord) (w n : Word) : (s.accept l c w n).wdata = w := rfl
@[simp] theorem State.accept_rnd (l : List HostEvent) (c : CmdWord) (w n : Word) : (s.accept l c w n).rnd = n := rfl
@[simp] theorem State.accept_rdata (l : List HostEvent) (c : CmdWord) (w n : Word) : (s.accept l c w n).rdata = s.rdata := rfl
@[simp] theorem State.accept_drawsTaken (l : List HostEvent) (c : CmdWord) (w n : Word) : (s.accept l c w n).drawsTaken = s.drawsTaken := rfl
@[simp] theorem State.accept_reg (l : List HostEvent) (c : CmdWord) (w n : Word) (r : Reg) : (s.accept l c w n).reg r = s.reg r := rfl
@[simp] theorem State.accept_mag (l : List HostEvent) (c : CmdWord) (w n : Word) (r : Reg) : (s.accept l c w n).mag r = s.mag r := rfl
@[simp] theorem State.accept_fb (l : List HostEvent) (c : CmdWord) (w n : Word) (r : Reg) : (s.accept l c w n).fb r = s.fb r := rfl
@[simp] theorem State.accept_prec (l : List HostEvent) (c : CmdWord) (w n : Word) (r : Reg) : (s.accept l c w n).prec r = s.prec r := rfl

/-! Registers: a write is read back, and leaves every other register alone (R26: "writing one never changes
another"). -/

theorem State.reg_def (r : Reg) : s.reg r = s.F[r] := rfl

@[simp] theorem State.complete_reg_self (rd : Reg) (v : FixedPoint) : (s.complete rd v).reg rd = v := by
  simp [State.reg_def]

theorem State.complete_reg_ne (rd r : Reg) (v : FixedPoint) (h : r ≠ rd) : (s.complete rd v).reg r = s.reg r := by
  have hne : (rd : Nat) ≠ (r : Nat) := fun e => h (Fin.ext e.symm)
  simp [State.reg_def, Vector.getElem_set_ne, hne]

theorem State.complete_reg (rd r : Reg) (v : FixedPoint) :
    (s.complete rd v).reg r = if r = rd then v else s.reg r := by
  by_cases h : r = rd
  · subst h; simp
  · simp [h, State.complete_reg_ne s rd r v h]

@[simp] theorem State.resetUnit_reg (r : Reg) : s.resetUnit.reg r = FixedPoint.zero := by
  simp [State.reg_def]

@[simp] theorem State.reset_reg (r : Reg) : State.reset.reg r = FixedPoint.zero := by
  simp [State.reg_def, State.reset]

/-- Two register files that read the same everywhere are the same. -/
theorem State.F_eq_of_reg_eq (t : State) (h : ∀ r : Reg, t.reg r = s.reg r) : t.F = s.F := by
  ext i hi : 1
  exact h ⟨i, hi⟩

/-! Ending a command with a block's result. -/

@[simp] theorem State.finish_value (rd : Reg) (p : Precision) (v : Word) :
    s.finish rd p (.value v) = s.complete rd ⟨v, p⟩ := rfl

@[simp] theorem State.finish_fault (rd : Reg) (p : Precision) (f : UnitFault) :
    s.finish rd p (.fault f) = s.raise f := rfl

/-! The status outputs (R30, R45). -/

/-- `STATUS` is `CAUSE` in bits 2:1 and `HALT` in bit 0. -/
theorem State.statusWord_toNat : s.statusWord.toNat = 2 * s.causePort.toNat + s.haltPort.toNat := by
  simp only [State.statusWord, State.haltPort]
  cases s.halt <;> cases h : s.cause <;> simp [State.causePort, Cause.code, h]

theorem State.haltPort_eq_one_iff : s.haltPort = 1 ↔ s.halt = true := by
  cases h : s.halt <;> simp [State.haltPort, h]

theorem State.haltPort_eq_zero_iff : s.haltPort = 0 ↔ s.halt = false := by
  cases h : s.halt <;> simp [State.haltPort, h]

theorem State.causePort_eq_zero_iff : s.causePort = 0 ↔ s.cause = .none := by
  cases h : s.cause <;> simp [State.causePort, Cause.code, h]

end Sys2Proof.Machine
end

