-- ==== Sys2Proof/Laws/Words.lean ====
section
/-! SUPPORT. One lemma per word function: its value as a natural number, or bit by bit. -/

namespace Sys2Proof.Machine

@[simp] theorem trunc_toNat (v : Nat) : (trunc v).toNat = v % 2 ^ 64 := by simp [trunc]

theorem trunc_toNat_of_lt {v : Nat} (h : v < 2 ^ 64) : (trunc v).toNat = v := by
  rw [trunc_toNat, Nat.mod_eq_of_lt h]

@[simp] theorem trunc_getLsbD (v j : Nat) : (trunc v).getLsbD j = (decide (j < 64) && v.testBit j) := by
  simp [trunc, BitVec.getLsbD_ofNat]

/-- The bits of `lowmask(p)` are the `p` low ones. -/
@[simp] theorem lowmask_testBit (p j : Nat) : (lowmask p).testBit j = decide (j < p) := by
  simp [lowmask]

/-- Masking with `lowmask(p)` is reducing modulo `2^p`. -/
theorem and_lowmask (v p : Nat) : v &&& lowmask p = v % 2 ^ p := by
  simp [lowmask]

/-- Clearing the low `p` bits. -/
theorem sub_mod_testBit (v p j : Nat) : (v - v % 2 ^ p).testBit j = (decide (p ≤ j) && v.testBit j) := by
  have h : v - v % 2 ^ p = 2 ^ p * (v / 2 ^ p) := by have := Nat.div_add_mod v (2 ^ p); omega
  rw [h, Nat.testBit_two_pow_mul, Nat.testBit_div_two_pow]
  by_cases hj : p ≤ j
  · simp [hj]
  · simp [hj]

/-- `neg_W` is two's-complement negation. -/
theorem negW_eq_neg (v : Word) : negW v = -v := by
  apply BitVec.eq_of_toNat_eq
  simp [negW, BitVec.toNat_neg]

/-- `signed_W` is the two's-complement reading. -/
theorem signedW_eq_toInt (v : Word) : signedW v = v.toInt := by
  simp only [signedW, BitVec.toInt]
  split <;> split <;> omega

theorem integralPart_toNat (m : Word) (p : Nat) : (integralPart m p).toNat = m.toNat / 2 ^ p := by
  rw [integralPart, trunc_toNat_of_lt (by rw [Nat.shiftRight_eq_div_pow]; exact (Nat.div_le_self _ _).trans_lt m.isLt),
    Nat.shiftRight_eq_div_pow]

theorem fractionalPart_toNat (m : Word) (p : Nat) : (fractionalPart m p).toNat = m.toNat % 2 ^ p := by
  rw [fractionalPart, and_lowmask, trunc_toNat_of_lt ((Nat.mod_le _ _).trans_lt m.isLt)]

/-- Bits `p-1:0` are the old ones, bits `63:p` are bits `63-p:0` of the value. -/
theorem withIntegral_getLsbD (m v : Word) (p j : Nat) (hj : j < 64) :
    (withIntegral m p v).getLsbD j = if j < p then m.getLsbD j else v.getLsbD (j - p) := by
  simp only [withIntegral, trunc_getLsbD, hj, decide_true, Bool.true_and, Nat.testBit_or, Nat.testBit_and,
    lowmask_testBit, trunc_toNat, Nat.testBit_mod_two_pow, Nat.testBit_shiftLeft]
  by_cases h : j < p
  · simp [h, BitVec.testBit_toNat, Nat.not_le.2 h]
  · simp [h, BitVec.testBit_toNat, Nat.not_lt.1 h]

/-- Bits `63:p` are the old ones, bits `p-1:0` are those of the value. -/
theorem withFractional_getLsbD (m v : Word) (p j : Nat) (hj : j < 64) :
    (withFractional m p v).getLsbD j = if j < p then v.getLsbD j else m.getLsbD j := by
  simp only [withFractional, trunc_getLsbD, hj, decide_true, Bool.true_and, Nat.testBit_or, Nat.testBit_and,
    lowmask_testBit, sub_mod_testBit]
  by_cases h : j < p
  · simp [h, BitVec.testBit_toNat, Nat.not_le.2 h]
  · simp [h, BitVec.testBit_toNat, Nat.not_lt.1 h]

theorem fxMul_toNat (a b : Word) (p : Nat) : (fxMul a b p).toNat = a.toNat * b.toNat / 2 ^ p % 2 ^ 64 := by
  simp [fxMul, Nat.shiftRight_eq_div_pow]

@[simp] theorem fxDiv_zero (a : Word) (p : Nat) : fxDiv a 0 p = .fault .divideByZero := rfl

theorem fxDiv_of_ne_zero (a b : Word) (p : Nat) (h : b ≠ 0) :
    fxDiv a b p = .value (trunc (a.toNat * 2 ^ p / b.toNat)) := by
  rw [fxDiv, if_neg h, Nat.shiftLeft_eq]

/-- A divide faults exactly on a zero divisor, and then with DivideByZero. -/
theorem fxDiv_eq_fault_iff (a b : Word) (p : Nat) (f : UnitFault) :
    fxDiv a b p = .fault f ↔ b = 0 ∧ f = .divideByZero := by
  by_cases h : b = 0
  · subst h
    rw [fxDiv_zero]; exact ⟨fun e => ⟨rfl, (BlockResult.fault.inj e).symm⟩, fun e => e.2 ▸ rfl⟩
  · rw [fxDiv_of_ne_zero a b p h]
    exact ⟨(fun e => nomatch e), fun e => absurd e.1 h⟩

end Sys2Proof.Machine
end

