-- ==== Sys2Proof/Laws/Exec.lean ====
section
/-! SUPPORT. What a command and a step can do, said once: every frame and invariant is read off these lemmas. -/

namespace Sys2Proof.Machine

theorem State.onCommand_halted {s : State} (h : s.halt = true) (f : State → State) : s.onCommand f = .next s.ignore := by
  simp [State.onCommand, h]

theorem State.onCommand_running {s : State} (h : s.halt = false) (f : State → State) : s.onCommand f = .next (f s) := by
  simp [State.onCommand, h]

/-- The state a command's effect starts from: `FXEXPS` has taken its draw, every other command has not (R181). -/
def afterDraw : Instr → State → State
  | .fxexps _ _, s => s.takeDraw
  | .fxld _ _, s | .fxmov _ _, s | .fxrdm _, s | .fxrdp _, s | .fxseti _, s | .fxsetd _, s | .fxgeti _, s
  | .fxgetd _, s | .fxmul _ _ _, s | .fxdiv _ _ _, s | .fxlog2 _ _, s | .fxln _ _, s => s

/-- How a command ends while `HALT = 0`: it writes its destination, or responds, or takes a fault. -/
inductive Ends (i : Instr) (s : State) : State → Prop
  | writes (rd : Reg) (v : FixedPoint) (h : destination i = some rd) : Ends i s ((afterDraw i s).complete rd v)
  | responds (v : Word) (h : destination i = none) : Ends i s (s.respond v)
  | faults (f : UnitFault) : Ends i s ((afterDraw i s).raise f)

theorem finish_ends (i : Instr) (s : State) (rd : Reg) (p : Precision) (h : destination i = some rd) (r : BlockResult) :
    Ends i s ((afterDraw i s).finish rd p r) := by
  cases r with
  | value v => exact .writes rd _ h
  | fault f => exact .faults f

/-- The state a running command ends in. -/
theorem exec_running (i : Instr) {s : State} (h : s.halt = false) : ∃ t, exec i s = .next t ∧ Ends i s t := by
  cases i <;> simp only [exec, execFxld, execFxmov, execFxrdm, execFxrdp, execFxseti, execFxsetd, execFxgeti, execFxgetd,
    execFxmul, execFxdiv, execFxlog2, execFxln, execFxexps, State.onCommand_running h]
  case fxld rd imm => split
                      · exact ⟨_, rfl, .writes rd _ rfl⟩
                      · exact ⟨_, rfl, .faults _⟩
  case fxmov rd ra => exact ⟨_, rfl, .writes rd _ rfl⟩
  case fxrdm ra => exact ⟨_, rfl, .responds _ rfl⟩
  case fxrdp ra => exact ⟨_, rfl, .responds _ rfl⟩
  case fxseti rd => exact ⟨_, rfl, .writes rd _ rfl⟩
  case fxsetd rd => exact ⟨_, rfl, .writes rd _ rfl⟩
  case fxgeti ra => exact ⟨_, rfl, .responds _ rfl⟩
  case fxgetd ra => exact ⟨_, rfl, .responds _ rfl⟩
  case fxmul rd ra rb => split
                         · exact ⟨_, rfl, .faults _⟩
                         · exact ⟨_, rfl, .writes rd _ rfl⟩
  case fxdiv rd ra rb => split
                         · exact ⟨_, rfl, .faults _⟩
                         · exact ⟨_, rfl, finish_ends (.fxdiv rd ra rb) s rd _ rfl _⟩
  case fxlog2 rd ra => exact ⟨_, rfl, .writes rd _ rfl⟩
  case fxln rd ra => split
                     · exact ⟨_, rfl, .faults _⟩
                     · exact ⟨_, rfl, .writes rd _ rfl⟩
  case fxexps rd ra => exact ⟨_, rfl, finish_ends (.fxexps rd ra) s rd _ rfl _⟩

/-- Every command's meaning looks at `HALT` first. -/
theorem exec_eq_onCommand (i : Instr) : ∃ f : State → State, ∀ s, exec i s = s.onCommand f := by
  cases i <;> exact ⟨_, fun _ => rfl⟩

theorem exec_halted (i : Instr) {s : State} (h : s.halt = true) : exec i s = .next s.ignore := by
  obtain ⟨f, hf⟩ := exec_eq_onCommand i
  rw [hf, State.onCommand_halted h]

/-- Everything a command can do. -/
theorem exec_cases {i : Instr} {s t : State} (h : exec i s = .next t) :
    (s.halt = true ∧ t = s.ignore) ∨ (s.halt = false ∧ Ends i s t) := by
  cases hs : s.halt with
  | true => rw [exec_halted i hs] at h; exact .inl ⟨rfl, (by cases h; rfl)⟩
  | false =>
    obtain ⟨u, hu, he⟩ := exec_running i hs
    rw [hu] at h; cases h; exact .inr ⟨rfl, he⟩

theorem execIllegal_cases {s t : State} (h : execIllegal s = .next t) :
    (s.halt = true ∧ t = s.ignore) ∨ (s.halt = false ∧ t = s.raise .illegalCommand) := by
  cases hs : s.halt with
  | true => rw [execIllegal, State.onCommand_halted hs] at h; exact .inl ⟨rfl, (by cases h; rfl)⟩
  | false => rw [execIllegal, State.onCommand_running hs] at h; exact .inr ⟨rfl, (by cases h; rfl)⟩

/-- Everything a step can do: idle, reset, ignore a command, execute a legal one, or fault on an illegal one. -/
theorem step_cases {s t : State} (h : step s = .next t) :
    (s.pending = [] ∧ t = s) ∨
    (∃ rest, s.pending = .reset :: rest ∧ t = { s with pending := rest }.resetUnit) ∨
    (∃ c w n rest, s.pending = .command c w n :: rest ∧
      ((s.halt = true ∧ t = (s.accept rest c w n).ignore) ∨
       (s.halt = false ∧ ((∃ i, decode c = .command i ∧ exec i (s.accept rest c w n) = .next t ∧
            Ends i (s.accept rest c w n) t) ∨
          (∃ why, decode c = .illegal why ∧ t = (s.accept rest c w n).raise .illegalCommand))))) := by
  rw [step] at h
  split at h
  case h_1 hp => cases h; exact .inl ⟨hp, rfl⟩
  case h_2 rest hp => cases h; exact .inr (.inl ⟨rest, hp, rfl⟩)
  case h_3 c w n rest hp =>
    refine .inr (.inr ⟨c, w, n, rest, hp, ?_⟩)
    rw [runCommand, State.accept_cmd] at h
    split at h
    case h_1 i hd =>
      rcases exec_cases h with ⟨hh, rfl⟩ | ⟨hh, he⟩
      · exact .inl ⟨hh, rfl⟩
      · exact .inr ⟨hh, .inl ⟨i, hd, h, he⟩⟩
    case h_2 why hd =>
      rcases execIllegal_cases h with ⟨hh, rfl⟩ | ⟨hh, rfl⟩
      · exact .inl ⟨hh, rfl⟩
      · exact .inr ⟨hh, .inr ⟨why, hd, rfl⟩⟩

/-! Each command while `HALT = 0`, in the shared operations: cited instead of unfolding a meaning. -/

section Running

variable {s : State} (h : s.halt = false)
include h

theorem exec_fxld_running (rd : Reg) (imm : BitVec 8) : exec (.fxld rd imm) s =
    .next (if imm.toNat ≤ 64 then s.complete rd ⟨s.wdata, immPrecision imm⟩ else s.raise .illegalCommand) :=
  show execFxld rd imm s = _ from State.onCommand_running h _

theorem exec_fxmov_running (rd ra : Reg) : exec (.fxmov rd ra) s = .next (s.complete rd (s.reg ra)) :=
  show execFxmov rd ra s = _ from State.onCommand_running h _

theorem exec_fxrdm_running (ra : Reg) : exec (.fxrdm ra) s = .next (s.respond (s.mag ra)) :=
  show execFxrdm ra s = _ from State.onCommand_running h _

theorem exec_fxrdp_running (ra : Reg) : exec (.fxrdp ra) s = .next (s.respond ((s.fb ra).zeroExtend 64)) :=
  show execFxrdp ra s = _ from State.onCommand_running h _

theorem exec_fxseti_running (rd : Reg) : exec (.fxseti rd) s =
    .next (s.complete rd ⟨withIntegral (s.mag rd) (s.prec rd) s.wdata, s.fb rd⟩) :=
  show execFxseti rd s = _ from State.onCommand_running h _

theorem exec_fxsetd_running (rd : Reg) : exec (.fxsetd rd) s =
    .next (s.complete rd ⟨withFractional (s.mag rd) (s.prec rd) s.wdata, s.fb rd⟩) :=
  show execFxsetd rd s = _ from State.onCommand_running h _

theorem exec_fxgeti_running (ra : Reg) : exec (.fxgeti ra) s =
    .next (s.respond (integralPart (s.mag ra) (s.prec ra))) :=
  show execFxgeti ra s = _ from State.onCommand_running h _

theorem exec_fxgetd_running (ra : Reg) : exec (.fxgetd ra) s =
    .next (s.respond (fractionalPart (s.mag ra) (s.prec ra))) :=
  show execFxgetd ra s = _ from State.onCommand_running h _

theorem exec_fxmul_running (rd ra rb : Reg) : exec (.fxmul rd ra rb) s =
    .next (if s.fb ra ≠ s.fb rb then s.raise .precisionMismatch
      else s.complete rd ⟨fxMul (s.mag ra) (s.mag rb) (s.prec ra), s.fb ra⟩) :=
  show execFxmul rd ra rb s = _ from State.onCommand_running h _

theorem exec_fxdiv_running (rd ra rb : Reg) : exec (.fxdiv rd ra rb) s =
    .next (if s.fb ra ≠ s.fb rb then s.raise .precisionMismatch
      else s.finish rd (s.fb ra) (fxDiv (s.mag ra) (s.mag rb) (s.prec ra))) :=
  show execFxdiv rd ra rb s = _ from State.onCommand_running h _

theorem exec_fxlog2_running (rd ra : Reg) : exec (.fxlog2 rd ra) s =
    .next (s.complete rd ⟨fxLog2 s.cfg (s.mag ra) (s.prec ra), s.fb ra⟩) :=
  show execFxlog2 rd ra s = _ from State.onCommand_running h _

theorem exec_fxln_running (rd ra : Reg) : exec (.fxln rd ra) s =
    .next (if s.fb ra ≠ ln2Fb then s.raise .precisionMismatch else s.complete rd ⟨fxLn s.cfg (s.mag ra), ln2Fb⟩) :=
  show execFxln rd ra s = _ from State.onCommand_running h _

theorem exec_fxexps_running (rd ra : Reg) : exec (.fxexps rd ra) s =
    .next (s.takeDraw.finish rd (s.fb ra) (fxExps s.cfg (s.mag ra) (s.fb ra) s.rnd)) :=
  show execFxexps rd ra s = _ from State.onCommand_running h _

theorem execIllegal_running : execIllegal s = .next (s.raise .illegalCommand) := State.onCommand_running h _

end Running

/-- `fx_exps` when the shifted maximum is zero: the first divide faults (R180, R183). -/
theorem fxExps_max_zero (c : Config) (q : Word) (p : Precision) (ran : Word)
    (h : c.maxDraw.toNat * 2 ^ p.toNat % 2 ^ 64 = 0) : fxExps c q p ran = .fault .divideByZero := by
  have hm : trunc (c.maxDraw.toNat <<< p.toNat) = 0 := BitVec.eq_of_toNat_eq (by simpa [Nat.shiftLeft_eq] using h)
  simp only [fxExps, hm, fxDiv_zero]

/-- `fx_exps` when it is not: the precision, then the rate (R180, R183). -/
theorem fxExps_max_ne_zero (c : Config) (q : Word) (p : Precision) (ran : Word)
    (h : c.maxDraw.toNat * 2 ^ p.toNat % 2 ^ 64 ≠ 0) : fxExps c q p ran =
      if p ≠ ln2Fb then .fault .precisionMismatch
      else fxDiv (fxLn c (trunc (ran.toNat * 2 ^ p.toNat % 2 ^ 64 * 2 ^ p.toNat /
        (c.maxDraw.toNat * 2 ^ p.toNat % 2 ^ 64)))) q 32 := by
  have hm : trunc (c.maxDraw.toNat <<< p.toNat) ≠ 0 := fun e =>
    h (by simpa [Nat.shiftLeft_eq] using congrArg BitVec.toNat e)
  simp only [fxExps, fxDiv_of_ne_zero _ _ _ hm, trunc_toNat]
  simp only [Nat.shiftLeft_eq, show ln2Fb.toNat = 32 from rfl]

/-! A run of the machine, one step at a time. -/

theorem run_succ_of_step (M : Host.Core) (s u : M.State) (h : M.step s = .next u) (k : Nat) :
    M.run (k + 1) s = M.run k u := by
  simp only [Host.Core.run, h]

theorem core_run_succ {s u : State} (h : step s = .next u) (k : Nat) : core.run (k + 1) s = core.run k u :=
  run_succ_of_step core s u h k

/-! What each way of ending leaves alone. -/

@[simp] theorem afterDraw_halt (i : Instr) (s : State) : (afterDraw i s).halt = s.halt := by cases i <;> rfl
@[simp] theorem afterDraw_cause (i : Instr) (s : State) : (afterDraw i s).cause = s.cause := by cases i <;> rfl
@[simp] theorem afterDraw_fcmd (i : Instr) (s : State) : (afterDraw i s).fcmd = s.fcmd := by cases i <;> rfl
@[simp] theorem afterDraw_cfg (i : Instr) (s : State) : (afterDraw i s).cfg = s.cfg := by cases i <;> rfl
@[simp] theorem afterDraw_pending (i : Instr) (s : State) : (afterDraw i s).pending = s.pending := by cases i <;> rfl
@[simp] theorem afterDraw_cmd (i : Instr) (s : State) : (afterDraw i s).cmd = s.cmd := by cases i <;> rfl
@[simp] theorem afterDraw_wdata (i : Instr) (s : State) : (afterDraw i s).wdata = s.wdata := by cases i <;> rfl
@[simp] theorem afterDraw_rnd (i : Instr) (s : State) : (afterDraw i s).rnd = s.rnd := by cases i <;> rfl
@[simp] theorem afterDraw_drawsTaken (i : Instr) (s : State) : (afterDraw i s).drawsTaken = s.drawsTaken + drawCount i := by
  cases i <;> rfl
@[simp] theorem afterDraw_reg (i : Instr) (s : State) (r : Reg) : (afterDraw i s).reg r = s.reg r := by cases i <;> rfl

end Sys2Proof.Machine
end

