-- ==== Sys2Proof/Laws/Log2.lean ====
section
/-! SUPPORT. The loops of `fx_log2` (spec/42_logarithm.md rules R152, R153, R155): each does what its closed form
says, within the turns the model allows it. -/

namespace Sys2Proof.Machine

theorem trunc_add (a b : Nat) : trunc a + trunc b = trunc (a + b) := by
  simp [trunc, BitVec.ofNat_add]

/-- Step 3a makes `d` turns when `x * 2^d` is in the window. -/
theorem doubleIntoWindow_eq (p d : Nat) : ∀ (n x : Nat) (y : Word), d ≤ n → 2 ^ p ≤ x * 2 ^ d → x * 2 ^ d < 2 ^ (p + 1) →
    doubleIntoWindow (2 ^ p) n x y = (x * 2 ^ d, y - trunc (d * 2 ^ p)) := by
  induction d with
  | zero =>
    intro n x y _ hlo _
    have hx : ¬ x < 2 ^ p := by simpa using hlo
    cases n <;> simp [doubleIntoWindow, hx, trunc]
  | succ d ih =>
    intro n x y hn hlo hhi
    obtain ⟨m, rfl⟩ : ∃ m, n = m + 1 := ⟨n - 1, by omega⟩
    have hpow : x * 2 ^ (d + 1) = x * 2 * 2 ^ d := by ring
    have hx : x < 2 ^ p := by
      have h1 : x * 2 ≤ x * 2 * 2 ^ d := Nat.le_mul_of_pos_right _ (by positivity)
      have h2 : 2 ^ (p + 1) = 2 * 2 ^ p := by ring
      omega
    rw [doubleIntoWindow, if_pos hx, Nat.shiftLeft_eq, pow_one,
      ih m (x * 2) _ (by omega) (by omega) (by omega), hpow]
    congr 1
    rw [BitVec.sub_sub, trunc_add]
    congr 2; ring

/-- Step 3b makes `d` turns when `x / 2^d` is in the window. -/
theorem halveIntoWindow_eq (p d : Nat) : ∀ (n x : Nat) (y : Word), d ≤ n → 2 ^ p ≤ x / 2 ^ d → x / 2 ^ d < 2 ^ (p + 1) →
    halveIntoWindow (2 ^ p) n x y = (x / 2 ^ d, y + trunc (d * 2 ^ p)) := by
  induction d with
  | zero =>
    intro n x y _ _ hhi
    have hx : ¬ 2 * 2 ^ p ≤ x := by rw [pow_succ] at hhi; simp at hhi; omega
    cases n <;> simp [halveIntoWindow, hx, trunc]
  | succ d ih =>
    intro n x y hn hlo hhi
    obtain ⟨m, rfl⟩ : ∃ m, n = m + 1 := ⟨n - 1, by omega⟩
    have hdiv : x / 2 ^ (d + 1) = x / 2 / 2 ^ d := by rw [Nat.div_div_eq_div_mul]; congr 1; ring
    have hx : 2 * 2 ^ p ≤ x := by
      have h1 : x / 2 / 2 ^ d ≤ x / 2 := Nat.div_le_self _ _
      omega
    rw [halveIntoWindow, if_pos hx, Nat.shiftRight_eq_div_pow, pow_one,
      ih m (x / 2) _ (by omega) (by omega) (by omega), hdiv]
    congr 1
    rw [BitVec.add_assoc, trunc_add]
    congr 2; ring

theorem pow_log2_le {x : Nat} (h : x ≠ 0) : 2 ^ Nat.log2 x ≤ x := Nat.log2_self_le h

theorem lt_pow_log2 (x : Nat) : x < 2 ^ (Nat.log2 x + 1) := Nat.lt_log2_self

theorem log2_lt (x : Word) (h : x ≠ 0) : Nat.log2 x.toNat < 64 := by
  have hx : x.toNat ≠ 0 := fun e => h (BitVec.eq_of_toNat_eq (by simpa using e))
  exact (Nat.log2_lt hx).2 x.isLt

/-- The normalised mantissa is in the window. -/
theorem normalised_window {x : Nat} (p : Nat) (h : x ≠ 0) :
    2 ^ p ≤ normalised x p ∧ normalised x p < 2 ^ (p + 1) := by
  have hlo := pow_log2_le h
  have hhi := lt_pow_log2 x
  simp only [normalised]
  split
  case isTrue hk =>
    have e1 : 2 ^ p = 2 ^ Nat.log2 x * 2 ^ (p - Nat.log2 x) := by rw [← pow_add]; congr 1; omega
    have e2 : 2 ^ (p + 1) = 2 ^ (Nat.log2 x + 1) * 2 ^ (p - Nat.log2 x) := by rw [← pow_add]; congr 1; omega
    rw [e1, e2]
    exact ⟨Nat.mul_le_mul_right _ hlo, Nat.mul_lt_mul_of_pos_right hhi (by positivity)⟩
  case isFalse hk =>
    have e1 : 2 ^ p * 2 ^ (Nat.log2 x - p) = 2 ^ Nat.log2 x := by rw [← pow_add]; congr 1; omega
    have e2 : 2 ^ (p + 1) * 2 ^ (Nat.log2 x - p) = 2 ^ (Nat.log2 x + 1) := by rw [← pow_add]; congr 1; omega
    exact ⟨(Nat.le_div_iff_mul_le (by positivity)).2 (by omega), (Nat.div_lt_iff_lt_mul (by positivity)).2 (by omega)⟩

/-- Step 3 as a whole: the mantissa is the normalised input, the accumulator is `(k - p)` units (R152). -/
theorem normalise_eq (x p : Nat) (h : x ≠ 0) (hk : Nat.log2 x < 64) (hp : p ≤ 63) :
    let up := doubleIntoWindow (2 ^ p) wordWidth x 0
    halveIntoWindow (2 ^ p) wordWidth up.1 up.2 =
      (normalised x p, trunc ((Nat.log2 x - p) * 2 ^ p) - trunc ((p - Nat.log2 x) * 2 ^ p)) := by
  obtain ⟨hlo, hhi⟩ := normalised_window p h
  by_cases hkp : Nat.log2 x < p
  · have hn : normalised x p = x * 2 ^ (p - Nat.log2 x) := by simp [normalised, hkp]
    rw [hn] at hlo hhi
    rw [doubleIntoWindow_eq p (p - Nat.log2 x) wordWidth x 0 (by simp only [wordWidth]; omega) hlo hhi]
    simp only
    rw [halveIntoWindow_eq p 0 wordWidth _ _ (by omega) (by simpa using hlo) (by simpa using hhi), hn]
    have h0 : Nat.log2 x - p = 0 := by omega
    simp [h0, trunc]
  · have hn : normalised x p = x / 2 ^ (Nat.log2 x - p) := by simp [normalised, hkp]
    rw [hn] at hlo hhi
    have hx : 2 ^ p ≤ x := (Nat.pow_le_pow_right (by omega) (by omega)).trans (pow_log2_le h)
    have hup : doubleIntoWindow (2 ^ p) wordWidth x 0 = (x, 0) := by
      rw [wordWidth, doubleIntoWindow, if_neg (by omega)]
    rw [hup]
    simp only
    rw [halveIntoWindow_eq p (Nat.log2 x - p) wordWidth x 0 (by simp only [wordWidth]; omega) hlo hhi, hn]
    have h0 : p - Nat.log2 x = 0 := by omega
    simp [h0, trunc]

/-- One iteration keeps the mantissa in the window (R153). -/
theorem mantissa_window (p z : Nat) (hlo : 2 ^ p ≤ z) (hhi : z < 2 ^ (p + 1)) (i : Nat) :
    2 ^ p ≤ mantissa p z i ∧ mantissa p z i < 2 ^ (p + 1) := by
  induction i with
  | zero => exact ⟨hlo, hhi⟩
  | succ i ih =>
    obtain ⟨h1, h2⟩ := ih
    have hpos : 0 < 2 ^ p := by positivity
    have hs : (2 : Nat) ^ (p + 1) = 2 * 2 ^ p := by ring
    have l1 : 2 ^ p ≤ mantissa p z i * mantissa p z i / 2 ^ p :=
      (Nat.le_div_iff_mul_le hpos).2 (Nat.mul_le_mul h1 h1)
    have l2 : mantissa p z i * mantissa p z i / 2 ^ p < 4 * 2 ^ p := by
      refine (Nat.div_lt_iff_lt_mul hpos).2 ?_
      calc mantissa p z i * mantissa p z i < 2 ^ (p + 1) * 2 ^ (p + 1) := Nat.mul_lt_mul'' h2 h2
        _ = 4 * 2 ^ p * 2 ^ p := by rw [hs]; ring
    simp only [mantissa]
    split <;> omega

theorem mantissa_succ (p z i : Nat) : mantissa p z (i + 1) = mantissa p (mantissa p z 1) i := by
  induction i with
  | zero => rfl
  | succ i ih => rw [mantissa, ih]; rfl

/-- Step 4: `n` iterations add the word whose bit `n - 1 - i` is the outcome of the test in iteration `i` (R153). -/
theorem squareBits_eq (p : Nat) : ∀ (n z b : Nat) (y : Word), (n = 0 ∨ b = 2 ^ (n - 1)) →
    ∃ f, f < 2 ^ n ∧ squareBits p (2 ^ p) n z b y = y + trunc f ∧
      ∀ i, i < n → f.testBit (n - 1 - i) = decide (squareReaches p (mantissa p z i)) := by
  intro n
  induction n with
  | zero => intro z b y _; exact ⟨0, by simp, by simp [squareBits, trunc], by simp⟩
  | succ n ih =>
    intro z b y hb
    have hb : b = 2 ^ n := by simpa using hb
    have hb' : n = 0 ∨ b >>> 1 = 2 ^ (n - 1) := by
      by_cases hn : n = 0
      · exact .inl hn
      · right
        obtain ⟨m, rfl⟩ : ∃ m, n = m + 1 := ⟨n - 1, by omega⟩
        rw [hb, Nat.shiftRight_eq_div_pow, pow_succ]; simp
    have hs : (2 : Nat) ^ (p + 1) = 2 * 2 ^ p := by ring
    have hm : mantissa p z 1 = if 2 * 2 ^ p ≤ (z * z) >>> p then (z * z) >>> p >>> 1 else (z * z) >>> p := by
      simp only [mantissa, Nat.shiftRight_eq_div_pow, pow_one, hs]
    by_cases hc : 2 * 2 ^ p ≤ (z * z) >>> p
    · rw [if_pos hc] at hm
      obtain ⟨f, hf, he, ht⟩ := ih ((z * z) >>> p >>> 1) (b >>> 1) (y + trunc b) hb'
      refine ⟨2 ^ n + f, by rw [pow_succ]; omega, ?_, ?_⟩
      · simp only [squareBits]
        rw [if_pos hc, he, hb, BitVec.add_assoc, trunc_add]
      · intro i hi
        cases i with
        | zero =>
          have hr : squareReaches p (mantissa p z 0) := by
            simp only [squareReaches, mantissa, hs, ← Nat.shiftRight_eq_div_pow]; exact hc
          simp [hr, Nat.testBit_two_pow_add_eq, Nat.testBit_lt_two_pow hf]
        | succ i =>
          rw [mantissa_succ, hm, ← ht i (by omega), show n + 1 - 1 - (i + 1) = n - 1 - i by omega]
          exact Nat.testBit_two_pow_add_gt (by omega) f
    · rw [if_neg hc] at hm
      obtain ⟨f, hf, he, ht⟩ := ih ((z * z) >>> p) (b >>> 1) y hb'
      refine ⟨f, by rw [pow_succ]; omega, ?_, ?_⟩
      · simp only [squareBits]
        rw [if_neg hc, he]
      · intro i hi
        cases i with
        | zero =>
          have hr : ¬ squareReaches p (mantissa p z 0) := by
            simp only [squareReaches, mantissa, hs, ← Nat.shiftRight_eq_div_pow]; exact hc
          simp [hr, Nat.testBit_lt_two_pow hf]
        | succ i =>
          rw [mantissa_succ, hm, ← ht i (by omega), show n + 1 - 1 - (i + 1) = n - 1 - i by omega]

/-- On a valid input `fx_log2` is its five steps; elsewhere it is the sentinel (R151). -/
theorem fxLog2_valid (c : Config) (x : Word) (p : Nat) (h1 : 1 ≤ p) (h2 : p ≤ 63) (hx : x ≠ 0) :
    fxLog2 c x p = log2Steps x p := by
  rw [fxLog2, if_neg (by simp only [log2FbMin, log2FbMax]; omega), if_neg hx]

theorem fxLog2_sentinel (c : Config) (x : Word) (p : Nat) (h : p < 1 ∨ 63 < p ∨ x = 0) : fxLog2 c x p = c.sentinel := by
  rw [fxLog2]
  split
  · rfl
  · rename_i hp
    simp only [log2FbMin, log2FbMax] at hp
    rcases h with h | h | h
    · omega
    · omega
    · exact if_pos h

end Sys2Proof.Machine
end

