-- ==== Sys2Proof/Laws/PerInstr.lean ====
section
/-! SUPPORT. Facts about every command as syntax, one lemma per constructor of Instr. Family EncodedFields: what the
fields of an encoded command hold (spec/30_encoding.md rules R61, R62, R65). -/

namespace Sys2Proof.Laws.EncodedFields

/-- The `op` value of a command (R65). -/
def opcode : Instr → Nat
  | .fxld _ _ => 0x01
  | .fxmov _ _ => 0x02
  | .fxrdm _ => 0x03
  | .fxrdp _ => 0x04
  | .fxseti _ => 0x08
  | .fxsetd _ => 0x09
  | .fxgeti _ => 0x0A
  | .fxgetd _ => 0x0B
  | .fxmul _ _ _ => 0x10
  | .fxdiv _ _ _ => 0x11
  | .fxlog2 _ _ => 0x18
  | .fxln _ _ => 0x19
  | .fxexps _ _ => 0x20

/-- The encoded word selects the command's own row, and every field its format leaves unused is zero. -/
def Statement (i : Instr) : Prop :=
  (opField (encode i)).toNat = opcode i ∧ ∃ f, opRow (encode i) = some (f, i) ∧ unusedAreZero f (encode i) = true

theorem fxld (rd : Reg) (imm : BitVec 8) : Statement (.fxld rd imm) := by
  refine ⟨?_, .LI, ?_, ?_⟩ <;> simp [encode, opcode, opRow, unusedAreZero]
theorem fxmov (rd ra : Reg) : Statement (.fxmov rd ra) := by
  refine ⟨?_, .R2, ?_, ?_⟩ <;> simp [encode, opcode, opRow, unusedAreZero]
theorem fxrdm (ra : Reg) : Statement (.fxrdm ra) := by
  refine ⟨?_, .RS, ?_, ?_⟩ <;> simp [encode, opcode, opRow, unusedAreZero]
theorem fxrdp (ra : Reg) : Statement (.fxrdp ra) := by
  refine ⟨?_, .RS, ?_, ?_⟩ <;> simp [encode, opcode, opRow, unusedAreZero]
theorem fxseti (rd : Reg) : Statement (.fxseti rd) := by
  refine ⟨?_, .RD, ?_, ?_⟩ <;> simp [encode, opcode, opRow, unusedAreZero]
theorem fxsetd (rd : Reg) : Statement (.fxsetd rd) := by
  refine ⟨?_, .RD, ?_, ?_⟩ <;> simp [encode, opcode, opRow, unusedAreZero]
theorem fxgeti (ra : Reg) : Statement (.fxgeti ra) := by
  refine ⟨?_, .RS, ?_, ?_⟩ <;> simp [encode, opcode, opRow, unusedAreZero]
theorem fxgetd (ra : Reg) : Statement (.fxgetd ra) := by
  refine ⟨?_, .RS, ?_, ?_⟩ <;> simp [encode, opcode, opRow, unusedAreZero]
theorem fxmul (rd ra rb : Reg) : Statement (.fxmul rd ra rb) := by
  refine ⟨?_, .R3, ?_, ?_⟩ <;> simp [encode, opcode, opRow, unusedAreZero]
theorem fxdiv (rd ra rb : Reg) : Statement (.fxdiv rd ra rb) := by
  refine ⟨?_, .R3, ?_, ?_⟩ <;> simp [encode, opcode, opRow, unusedAreZero]
theorem fxlog2 (rd ra : Reg) : Statement (.fxlog2 rd ra) := by
  refine ⟨?_, .R2, ?_, ?_⟩ <;> simp [encode, opcode, opRow, unusedAreZero]
theorem fxln (rd ra : Reg) : Statement (.fxln rd ra) := by
  refine ⟨?_, .R2, ?_, ?_⟩ <;> simp [encode, opcode, opRow, unusedAreZero]
theorem fxexps (rd ra : Reg) : Statement (.fxexps rd ra) := by
  refine ⟨?_, .R2, ?_, ?_⟩ <;> simp [encode, opcode, opRow, unusedAreZero]

end Sys2Proof.Laws.EncodedFields
end

