-- ==== Sys2Proof/Tests/Slice0.lean ====
section
/-! SUPPORT. The model's own tests. Expected values come from the spec's tables and worked examples, named in each
comment. First the decoder and the check on commands, then one or two steps per command, then for every statement
with hypotheses a concrete state and operands that meet them together. -/

namespace Sys2Proof.Tests

open Sys2Proof.Machine Sys2Proof.Claims

/-- The reset state with `a` in `F[1]`, `b` in `F[2]` and `w` on the `wdata` port. -/
def holding (a b : FixedPoint) (w : Word := 0) : State :=
  { State.reset with F := (State.reset.F.set 1 a).set 2 b, wdata := w }

/-- The same with `n` on the randomness port. -/
def drawing (a : FixedPoint) (n : Word) : State := { holding a FixedPoint.zero with rnd := n }

/-- `s` halted by an illegal word. -/
def halted : State := State.reset.raise .illegalCommand

/-- `s` with one event presented. -/
def facing (s : State) (e : HostEvent) : State := { s with pending := [e] }

/-- The state a step or a command answers, if it answers one. -/
def next? (o : Outcome) : Option State :=
  match o with
  | .next t => some t
  | .fault _ => none
  | .refused _ => none

/-- What is in `F[r]` afterwards, and the cause port. -/
def result (r : Reg) (o : Outcome) : Option (FixedPoint × BitVec 2) := (next? o).map fun t => (t.reg r, t.causePort)

/-- The response afterwards. -/
def response (o : Outcome) : Option Word := (next? o).bind State.rdata

/-! ## The check on commands (R63, R70) -/

theorem test_wellFormed_refuses_precision_65 : ¬ (Instr.fxld 2 65).WellFormed ∧ ¬ (Instr.fxld 1 255).WellFormed := by
  decide

theorem test_wellFormed_accepts_precision_0_and_64 : (Instr.fxld 15 0).WellFormed ∧ (Instr.fxld 0 64).WellFormed := by
  decide

/-! ## Decoding: the words of R74, in binary, fields `z imm rb ra rd op` -/

theorem test_decode_transfer :
    decode 0b0000_00100000_0000_0000_0001_00000001 = .command (.fxld 1 32) ∧
    decode 0b0000_01000000_0000_0000_0000_00000001 = .command (.fxld 0 64) ∧
    decode 0b0000_00000000_0000_0100_0101_00000010 = .command (.fxmov 5 4) ∧
    decode 0b0000_00000000_0000_0011_0000_00000011 = .command (.fxrdm 3) ∧
    decode 0b0000_00000000_0000_0011_0000_00000100 = .command (.fxrdp 3) := by decide

theorem test_decode_accessors :
    decode 0b0000_00000000_0000_0000_0001_00001000 = .command (.fxseti 1) ∧
    decode 0b0000_00000000_0000_0000_0001_00001001 = .command (.fxsetd 1) ∧
    decode 0b0000_00000000_0000_0001_0000_00001010 = .command (.fxgeti 1) ∧
    decode 0b0000_00000000_0000_0001_0000_00001011 = .command (.fxgetd 1) := by decide

theorem test_decode_arithmetic :
    decode 0b0000_00000000_0010_0001_0011_00010000 = .command (.fxmul 3 1 2) ∧
    decode 0b0000_00000000_0010_0001_0011_00010001 = .command (.fxdiv 3 1 2) := by decide

theorem test_decode_logarithm_and_sampler :
    decode 0b0000_00000000_0000_0001_0010_00011000 = .command (.fxlog2 2 1) ∧
    decode 0b0000_00000000_0000_0001_0010_00011001 = .command (.fxln 2 1) ∧
    decode 0b0000_00000000_0000_0001_0010_00100000 = .command (.fxexps 2 1) := by decide

/-- The illegal words listed under R74, and the FXLD word with bit 27 set. -/
theorem test_decode_illegal :
    decode 0x00000000 = .illegal .undefinedOp ∧ decode 0x00000005 = .illegal .undefinedOp ∧
    decode 0x04100201 = .illegal .precisionAbove64 ∧ decode 0x08000101 = .illegal .precisionAbove64 ∧
    decode 0x10021310 = .illegal .nonzeroUnusedField ∧ decode 0x00121310 = .illegal .nonzeroUnusedField ∧
    decode 0x00001103 = .illegal .nonzeroUnusedField := by decide

/-- The words of R74 from the encoder, and through the host's numbering. -/
theorem test_encode :
    encode (.fxld 1 32) = 0x02000101 ∧ encode (.fxmov 5 4) = 0x00004502 ∧ encode (.fxmul 3 1 2) = 0x00021310 ∧
    encode (.fxexps 2 1) = 0x00001220 ∧ decodeTableWord 32 0x00021311 = some (.fxdiv 3 1 2) ∧
    decodeTableWord 32 0x04100201 = none := by decide

/-- The very next step runs the word placed by `withFetchWord`, from the reset state: FXLOG2 of the unloaded `F[1]`
stores the sentinel at precision 0 (R234). -/
theorem test_withFetchWord : result 2 (step (State.reset.withFetchWord 32 0x00001218)) =
    some (⟨State.reset.cfg.sentinel, 0⟩, 0) := by decide

/-! ## Commands -/

/-- R100's example. -/
theorem test_fxld : result 1 (exec (.fxld 1 32) (holding ⟨7, 3⟩ ⟨0, 0⟩ 0x0000000100000000)) =
    some (⟨0x0000000100000000, 32⟩, 0) := by decide

/-- R100: an immediate of 65 writes nothing and is IllegalCommand. -/
theorem test_fxld_illegal : result 1 (exec (.fxld 1 65) (holding ⟨7, 3⟩ ⟨0, 0⟩ 5)) = some (⟨7, 3⟩, 3) := by decide

/-- R101's example, in registers 2 and 1. -/
theorem test_fxmov : result 2 (exec (.fxmov 2 1) (holding ⟨0x50000, 16⟩ ⟨9, 9⟩)) = some (⟨0x50000, 16⟩, 0) := by
  decide

/-- R102's example, in register 1. -/
theorem test_fxrdm : response (exec (.fxrdm 1) (holding ⟨0x40000, 16⟩ ⟨0, 0⟩)) = some 0x40000 := by decide

/-- R103's example, in register 1. -/
theorem test_fxrdp : response (exec (.fxrdp 1) (holding ⟨0x40000, 16⟩ ⟨0, 0⟩)) = some 0x10 := by decide

/-- R104's example: the bit of weight `2^32` is discarded. -/
theorem test_fxseti : result 1 (exec (.fxseti 1) (holding ⟨0xAAAAAAAA55555555, 32⟩ ⟨0, 0⟩ 0x0000000100000010)) =
    some (⟨0x0000001055555555, 32⟩, 0) := by decide

/-- R105's example. -/
theorem test_fxsetd : result 1 (exec (.fxsetd 1) (holding ⟨0xAAAAAAAA55555555, 32⟩ ⟨0, 0⟩ 0xFFFFFFFF12345678)) =
    some (⟨0xAAAAAAAA12345678, 32⟩, 0) := by decide

/-- R106's example. -/
theorem test_fxgeti : response (exec (.fxgeti 1) (holding ⟨0x0000001055555555, 32⟩ ⟨0, 0⟩)) = some 0x10 := by decide

/-- R107's example. -/
theorem test_fxgetd : response (exec (.fxgetd 1) (holding ⟨0x0000001055555555, 32⟩ ⟨0, 0⟩)) = some 0x55555555 := by
  decide

/-- R132's example, stored over the first operand (R237). -/
theorem test_fxmul : result 1 (exec (.fxmul 1 1 2) (holding ⟨0x180000000, 32⟩ ⟨0x200000000, 32⟩)) =
    some (⟨0x300000000, 32⟩, 0) := by decide

/-- R132: a mismatch faults even when a magnitude is 0. -/
theorem test_fxmul_mismatch : result 1 (exec (.fxmul 1 1 2) (holding ⟨0, 32⟩ ⟨0x20000, 16⟩)) = some (⟨0, 32⟩, 1) := by
  decide

/-- R136's example: which operand divides which. -/
theorem test_fxdiv : result 3 (exec (.fxdiv 3 1 2) (holding ⟨0x300000000, 32⟩ ⟨0x200000000, 32⟩)) =
    some (⟨0x180000000, 32⟩, 0) := by decide

/-- R209 (3): a mismatch before a zero divisor. -/
theorem test_fxdiv_priority : result 3 (exec (.fxdiv 3 1 2) (holding ⟨0x300000000, 32⟩ ⟨0, 16⟩)) =
    some (⟨0, 0⟩, 1) := by decide

/-- A line of R158: 3.0 at precision 16. -/
theorem test_fxlog2 : result 2 (exec (.fxlog2 2 1) (holding ⟨0x30000, 16⟩ ⟨0, 0⟩)) = some (⟨0x195C0, 16⟩, 0) := by
  decide +kernel

/-- A line of R158: the accumulator wraps at precision 63. -/
theorem test_fxlog2_wraps : result 2 (exec (.fxlog2 2 1) (holding ⟨1, 63⟩ ⟨0, 0⟩)) =
    some (⟨0x8000000000000000, 63⟩, 0) := by decide +kernel

/-- A line of R163's table: 0.75, with the default `LN2_MAG`. -/
theorem test_fxln : result 2 (exec (.fxln 2 1) (holding ⟨0xC0000000, 32⟩ ⟨0, 0⟩)) =
    some (⟨0x49A58845, 32⟩, 0) := by decide +kernel

/-- The last line of R163's table: an input above 1.0. -/
theorem test_fxln_above_one : result 2 (exec (.fxln 2 1) (holding ⟨0x200000000, 32⟩ ⟨0, 0⟩)) =
    some (⟨0xB17217F64E8DE809, 32⟩, 0) := by decide +kernel

/-- A line of R189: rate 3.0, draw `0x00BC614E`, with the default constants and the example `M`. -/
theorem test_fxexps : result 2 (exec (.fxexps 2 1) (drawing ⟨0x300000000, 32⟩ 0x00BC614E)) =
    some (⟨0x00000001B836869E, 32⟩, 0) := by decide +kernel

/-- R181 and R183: a rate at precision 16 faults, and the draw is consumed. -/
theorem test_fxexps_mismatch : (next? (exec (.fxexps 2 1) (drawing ⟨0x10000, 16⟩ 5))).map
    (fun t => (t.reg 2, t.causePort, t.drawsTaken)) = some (⟨0, 0⟩, 1, 1) := by decide

/-! ## Every hypothesis is met: encodings and steps -/

theorem witness_DecodeOfEncodeIsTheCommand : (Instr.fxld 15 64).WellFormed := by decide

theorem witness_DecodedWordIsItsEncoding : decode 0x04000F01 = .command (.fxld 15 64) := by decide

/-- One boundary word per clause: `op` `0xFF`; `z` 1; the lowest bit of each unused field; an immediate of 65. -/
theorem witness_ReservedWordsAreIllegal :
    (0x000000FF#32).toNat % 2 ^ 8 ∉ [0x01, 0x02, 0x03, 0x04, 0x08, 0x09, 0x0A, 0x0B, 0x10, 0x11, 0x18, 0x19, 0x20] ∧
    (0x10000002#32).toNat / 2 ^ 28 ≠ 0 ∧
    ((0x00001001#32).toNat % 2 ^ 8 = 0x01 ∧ (0x00001001#32).toNat / 2 ^ 12 % 2 ^ 8 ≠ 0) ∧
    ((0x00010018#32).toNat % 2 ^ 8 ∈ [0x02, 0x18, 0x19, 0x20] ∧ (0x00010018#32).toNat / 2 ^ 16 % 2 ^ 12 ≠ 0) ∧
    ((0x00001008#32).toNat % 2 ^ 8 ∈ [0x08, 0x09] ∧ (0x00001008#32).toNat / 2 ^ 12 % 2 ^ 16 ≠ 0) ∧
    ((0x00000103#32).toNat % 2 ^ 8 ∈ [0x03, 0x04, 0x0A, 0x0B] ∧ (0x00000103#32).toNat / 2 ^ 8 % 2 ^ 4 ≠ 0) ∧
    ((0x0010000B#32).toNat % 2 ^ 8 ∈ [0x03, 0x04, 0x0A, 0x0B] ∧ (0x0010000B#32).toNat / 2 ^ 16 % 2 ^ 12 ≠ 0) ∧
    ((0x00100010#32).toNat % 2 ^ 8 ∈ [0x10, 0x11] ∧ (0x00100010#32).toNat / 2 ^ 20 % 2 ^ 8 ≠ 0) ∧
    ((0x04100001#32).toNat % 2 ^ 8 = 0x01 ∧ 65 ≤ (0x04100001#32).toNat / 2 ^ 20 % 2 ^ 8) := by decide

theorem witness_StepRunsTheDecodedCommand :
    (facing State.reset (.command 0x00021310 1 2)).pending = .command 0x00021310 1 2 :: [] ∧
    decode 0x00021310 = .command (.fxmul 3 1 2) := by decide

theorem witness_IllegalWordHaltsTheUnit :
    (facing State.reset (.command 0 1 2)).halt = false ∧
    (facing State.reset (.command 0 1 2)).pending = .command 0 1 2 :: [] ∧ decode 0 = .illegal .undefinedOp := by decide

theorem witness_HaltedUnitIgnoresEveryCommand :
    (facing halted (.command 0x02000101 1 2)).halt = true ∧
    (facing halted (.command 0x02000101 1 2)).pending = .command 0x02000101 1 2 :: [] := by decide

/-- Both clauses: a reset, and a command presented to the halted unit. -/
theorem witness_OnlyResetLeavesTheHaltedState :
    (∃ t, step (facing halted .reset) = .next t ∧ (facing halted .reset).halt = true ∧ t.halt = false) ∧
    (∃ t, step (facing halted (.command 0x02000101 1 2)) = .next t ∧
      (facing halted (.command 0x02000101 1 2)).halt = true ∧ t.halt = true) :=
  ⟨⟨_, rfl, rfl, rfl⟩, ⟨_, rfl, rfl, rfl⟩⟩

theorem witness_ResetEventClearsTheUnit : (facing halted .reset).pending = .reset :: [] := rfl

theorem witness_IdleUnitHoldsItsState : State.reset.pending = [] := rfl

/-- Also of `ParametersNeverChange`. -/
theorem witness_EventsAreTakenInOrder : ∃ t, step (facing State.reset (.command 0x02000101 1 2)) = .next t :=
  ⟨_, rfl⟩

theorem witness_SuccessfulRunWasNeverHalted :
    (∀ e ∈ (facing State.reset (.command 0x02000101 1 2)).pending, e ≠ .reset) ∧
    RunSucceeds 2 (facing State.reset (.command 0x02000101 1 2)) ∧ 1 ≤ 2 :=
  ⟨by decide, ⟨_, rfl, rfl⟩, by decide⟩

/-! ## Every hypothesis is met: moving values, accessors, arithmetic -/

/-- Also of the statements about FXMOV, FXRDM, FXRDP, FXSETI, FXSETD, FXGETI and FXGETD, whose one hypothesis is
`HALT = 0`, and of FXLOG2's. Both clauses of FXLD's at their boundary. -/
theorem witness_FxldLoadsWordAndPrecision :
    State.reset.halt = false ∧ (64#8).toNat ≤ 64 ∧ 64 < (65#8).toNat := by decide

theorem witness_FxmovCopiesTheValue : State.reset.halt = false ∧ (3 : Reg) = 3 := by decide

theorem witness_SetThenGetRoundTrips : (holding ⟨5, 64⟩ ⟨0, 0⟩ 7).halt = false ∧ (holding ⟨5, 64⟩ ⟨0, 0⟩ 7).prec 1 ≤ 64 := by
  decide

theorem witness_AccessorsAtBoundaryPrecisions :
    (holding ⟨5, 64⟩ ⟨5, 0⟩ 7).halt = false ∧ (holding ⟨5, 64⟩ ⟨5, 0⟩ 7).prec 2 = 0 ∧
    (holding ⟨5, 64⟩ ⟨5, 0⟩ 7).prec 1 = 64 := by decide

theorem witness_FxmulStoresTheTruncatedProduct :
    (holding ⟨5, 64⟩ ⟨5, 0⟩).halt = false ∧ (holding ⟨5, 64⟩ ⟨5, 0⟩).prec 1 = (holding ⟨5, 64⟩ ⟨5, 0⟩).prec 1 ∧
    (holding ⟨5, 64⟩ ⟨5, 0⟩).prec 1 ≠ (holding ⟨5, 64⟩ ⟨5, 0⟩).prec 2 := by decide

theorem witness_FxdivStoresTheTruncatedQuotient :
    (holding ⟨5, 64⟩ ⟨0, 64⟩).halt = false ∧
    ((holding ⟨5, 64⟩ ⟨0, 64⟩).prec 2 = (holding ⟨5, 64⟩ ⟨0, 64⟩).prec 1 ∧ (holding ⟨5, 64⟩ ⟨0, 64⟩).mag 1 ≠ 0) ∧
    ((holding ⟨5, 64⟩ ⟨0, 64⟩).prec 1 = (holding ⟨5, 64⟩ ⟨0, 64⟩).prec 2 ∧ (holding ⟨5, 64⟩ ⟨0, 64⟩).mag 2 = 0) ∧
    (holding ⟨5, 64⟩ ⟨0, 64⟩).prec 1 ≠ (holding ⟨5, 64⟩ ⟨0, 64⟩).prec 3 := by decide

/-- `a` and `b` one, precision 63 and a product below `2^63`; the two special precisions; `p = 1`. -/
theorem witness_MultiplyLaws :
    63 ≤ 63 ∧ (1 : Word).toNat * (1 : Word).toNat < 2 ^ 63 ∧ (64 : Nat) = 64 ∧ (0 : Nat) = 0 ∧ (1 : Nat) ≤ 1 := by decide

theorem witness_DivideLaws :
    63 ≤ 63 ∧ (1 : Word) ≠ 0 ∧ (1 : Word).toNat * 2 ^ 63 < (0xFFFFFFFFFFFFFFFF : Word).toNat ∧
    (0xFFFFFFFFFFFFFFFF : Word) ≠ 0 := by decide

theorem witness_DivideUndoesMultiplyOnlyWithoutRounding :
    64 ≤ 64 ∧ (0xFFFFFFFFFFFFFFFF : Word) ≠ 0 ∧
    (0xFFFFFFFFFFFFFFFF : Word).toNat * (0xFFFFFFFFFFFFFFFF : Word).toNat / 2 ^ 64 < 2 ^ 64 := by decide

/-! ## Every hypothesis is met: logarithms and sampler -/

/-- One state per disjunct. -/
theorem witness_LogarithmOutsideItsDomainStoresTheSentinel :
    ((holding ⟨5, 0⟩ ⟨5, 64⟩).halt = false ∧ (holding ⟨5, 0⟩ ⟨5, 64⟩).prec 1 = 0) ∧
    64 ≤ (holding ⟨5, 0⟩ ⟨5, 64⟩).prec 2 ∧
    (holding ⟨0, 63⟩ ⟨5, 64⟩).halt = false ∧ (holding ⟨0, 63⟩ ⟨5, 64⟩).mag 1 = 0 := by decide

theorem witness_NormalisationReachesTheWindow :
    (1 : Nat) ≤ 63 ∧ 63 ≤ 63 ∧ (1 : Word) ≠ 0 ∧ 63 ≤ 63 ∧ 63 - 63 ≤ 0 := by decide

theorem witness_LogarithmIsExponentAndSquaringTests :
    (holding ⟨3, 1⟩ ⟨5, 63⟩).halt = false ∧
    (1 ≤ (holding ⟨3, 1⟩ ⟨5, 63⟩).prec 1 ∧ (holding ⟨3, 1⟩ ⟨5, 63⟩).prec 1 ≤ 63 ∧ (holding ⟨3, 1⟩ ⟨5, 63⟩).mag 1 ≠ 0) ∧
    1 ≤ (holding ⟨3, 1⟩ ⟨5, 63⟩).prec 2 ∧ (holding ⟨3, 1⟩ ⟨5, 63⟩).prec 2 ≤ 63 ∧ (holding ⟨3, 1⟩ ⟨5, 63⟩).mag 2 ≠ 0 := by
  decide

/-- `F[1]` holds 1.0 and `F[2]` holds 2.0, at precision 62, the highest at which 2.0 is representable. -/
theorem witness_LogarithmIsExactOnPowersOfTwo :
    (holding ⟨0x4000000000000000, 62⟩ ⟨0x8000000000000000, 62⟩).halt = false ∧
    ((holding ⟨0x4000000000000000, 62⟩ ⟨0x8000000000000000, 62⟩).mag 1).toNat = 2 ^ 62 ∧
    (holding ⟨0x4000000000000000, 62⟩ ⟨0x8000000000000000, 62⟩).prec 1 = 62 ∧
    ((holding ⟨0x4000000000000000, 62⟩ ⟨0x8000000000000000, 62⟩).mag 2).toNat = 2 ^ 63 ∧
    (holding ⟨0x4000000000000000, 62⟩ ⟨0x8000000000000000, 62⟩).prec 2 + 1 = 63 ∧ (63 : Nat) < 64 := by decide

theorem witness_FxlnStoresTheScaledNegatedLogarithm :
    (holding ⟨5, 32⟩ ⟨5, 33⟩).halt = false ∧ (holding ⟨5, 32⟩ ⟨5, 33⟩).prec 1 = 32 ∧
    (holding ⟨5, 32⟩ ⟨5, 33⟩).prec 2 ≠ 32 := by decide

theorem witness_NaturalLogOfOneAndOfZero :
    (holding ⟨0x0000000100000000, 32⟩ ⟨0, 32⟩).halt = false ∧
    ((holding ⟨0x0000000100000000, 32⟩ ⟨0, 32⟩).prec 1 = 32 ∧
      (holding ⟨0x0000000100000000, 32⟩ ⟨0, 32⟩).mag 1 = 0x0000000100000000) ∧
    ((holding ⟨0x0000000100000000, 32⟩ ⟨0, 32⟩).prec 2 = 32 ∧ (holding ⟨0x0000000100000000, 32⟩ ⟨0, 32⟩).mag 2 = 0) ∧
    (holding ⟨0x0000000100000000, 32⟩ ⟨0, 32⟩).cfg.sentinel = 0xFFFFFFFFFFFFFFFF ∧
    (holding ⟨0x0000000100000000, 32⟩ ⟨0, 32⟩).cfg.ln2Mag.toNat < 2 ^ 32 := by decide

theorem witness_NaturalLogBelowOneIsNonnegativeAndBounded :
    (holding ⟨0x0000000100000000, 32⟩ ⟨1, 32⟩).halt = false ∧
    (holding ⟨0x0000000100000000, 32⟩ ⟨1, 32⟩).prec 1 = 32 ∧ (holding ⟨0x0000000100000000, 32⟩ ⟨1, 32⟩).mag 1 ≠ 0 ∧
    ((holding ⟨0x0000000100000000, 32⟩ ⟨1, 32⟩).mag 1).toNat ≤ 2 ^ 32 ∧
    (holding ⟨0x0000000100000000, 32⟩ ⟨1, 32⟩).cfg.ln2Mag.toNat < 2 ^ 59 := by decide

/-- One register per clause, `M` shifted away at precision 64 in the first. -/
theorem witness_FxexpsComposesDivideLogDivide :
    (holding ⟨5, 64⟩ ⟨5, 32⟩).halt = false ∧
    (holding ⟨5, 64⟩ ⟨5, 32⟩).cfg.maxDraw.toNat * 2 ^ (holding ⟨5, 64⟩ ⟨5, 32⟩).prec 1 % 2 ^ 64 = 0 ∧
    (holding ⟨5, 33⟩ ⟨0, 32⟩).cfg.maxDraw.toNat * 2 ^ (holding ⟨5, 33⟩ ⟨0, 32⟩).prec 1 % 2 ^ 64 ≠ 0 ∧
    (holding ⟨5, 33⟩ ⟨0, 32⟩).prec 1 ≠ 32 ∧
    (holding ⟨5, 33⟩ ⟨0, 32⟩).cfg.maxDraw.toNat * 2 ^ (holding ⟨5, 33⟩ ⟨0, 32⟩).prec 2 % 2 ^ 64 ≠ 0 ∧
    (holding ⟨5, 33⟩ ⟨0, 32⟩).prec 2 = 32 ∧ (holding ⟨5, 33⟩ ⟨0, 32⟩).mag 2 = 0 ∧
    (holding ⟨5, 64⟩ ⟨5, 32⟩).prec 2 = 32 ∧ (holding ⟨5, 64⟩ ⟨5, 32⟩).mag 2 ≠ 0 := by decide

/-- The state the sampler's statements meet their hypotheses in: rate 1.0 and the draw `n`. -/
def sampling (n : Word) : State := drawing ⟨0x0000000100000000, 32⟩ n

theorem witness_SamplerReducesWhenTheMaximumFits :
    (sampling 0x7FFFFFFF).halt = false ∧ (sampling 0x7FFFFFFF).prec 1 = 32 ∧ (sampling 0x7FFFFFFF).mag 1 ≠ 0 ∧
    1 ≤ (sampling 0x7FFFFFFF).cfg.maxDraw.toNat ∧ (sampling 0x7FFFFFFF).cfg.maxDraw.toNat < 2 ^ 32 ∧
    (sampling 0x7FFFFFFF).rnd.toNat ≤ (sampling 0x7FFFFFFF).cfg.maxDraw.toNat := by decide

theorem witness_MaximumDrawGivesZeroDelay :
    (sampling 0x7FFFFFFF).halt = false ∧ (sampling 0x7FFFFFFF).prec 1 = 32 ∧ (sampling 0x7FFFFFFF).mag 1 ≠ 0 ∧
    (sampling 0x7FFFFFFF).rnd = (sampling 0x7FFFFFFF).cfg.maxDraw ∧
    (sampling 0x7FFFFFFF).cfg.maxDraw.toNat * 2 ^ 32 % 2 ^ 64 ≠ 0 := by decide

/-- The zero draw with the spec's other candidate for `SENTINEL` (R11). -/
def samplingZero : State := { sampling 0 with cfg := { defaultConfig with sentinel := 0x7FFFFFFFFFFFFFFF } }

theorem witness_ZeroDrawFlowsThroughTheSentinel :
    ((sampling 0).halt = false ∧ (sampling 0).prec 1 = 32 ∧ (sampling 0).mag 1 ≠ 0 ∧ (sampling 0).rnd = 0 ∧
      (sampling 0).cfg.maxDraw.toNat * 2 ^ 32 % 2 ^ 64 ≠ 0 ∧ (sampling 0).cfg.sentinel = 0xFFFFFFFFFFFFFFFF ∧
      (sampling 0).cfg.ln2Mag.toNat < 2 ^ 32) ∧
    (samplingZero.halt = false ∧ samplingZero.prec 1 = 32 ∧ samplingZero.mag 1 = 0x0000000100000000 ∧
      samplingZero.rnd = 0 ∧ samplingZero.cfg.maxDraw.toNat * 2 ^ 32 % 2 ^ 64 ≠ 0 ∧
      samplingZero.cfg.sentinel = 0x7FFFFFFFFFFFFFFF ∧ samplingZero.cfg.ln2Mag = 0xB17217F7) := by decide

/-- Both clauses: `M = 2^32`, and the example `M`. -/
theorem witness_SamplerFaultsOnEveryDrawWhenTheMaximumShiftsAway :
    (({ sampling 5 with cfg := { defaultConfig with maxDraw := 0x100000000 } } : State).halt = false ∧
      ({ sampling 5 with cfg := { defaultConfig with maxDraw := 0x100000000 } } : State).prec 1 = 32 ∧
      ({ sampling 5 with cfg := { defaultConfig with maxDraw := 0x100000000 } } : State).mag 1 ≠ 0 ∧
      ({ sampling 5 with cfg := { defaultConfig with maxDraw := 0x100000000 } } : State).cfg.maxDraw.toNat % 2 ^ 32 = 0) ∧
    ((sampling 5).halt = false ∧ (sampling 5).prec 1 = 32 ∧ (sampling 5).mag 1 ≠ 0 ∧
      (sampling 5).cfg.maxDraw.toNat % 2 ^ 32 ≠ 0) := by decide

/-- The shifted draw in `F[1]`, the shifted `M` in `F[2]`, rate 1.0 in `F[3]`, and the draw 5. -/
def byHand : State :=
  { State.reset with
    F := ((State.reset.F.set 1 ⟨0x0000000500000000, 32⟩).set 2 ⟨0x7FFFFFFF00000000, 32⟩).set 3 ⟨0x0000000100000000, 32⟩
    rnd := 5 }

/-- With the quotients in `F[4]`; the last conjunct is the clause on `HALT = 0`. -/
theorem witness_SamplerEqualsItsBlocksIssuedByHand :
    byHand.halt = false ∧ (4 : Reg) ≠ 3 ∧ byHand.prec 3 = 32 ∧
    byHand.reg 1 = ⟨BitVec.ofNat 64 (byHand.rnd.toNat * 2 ^ 32), 32⟩ ∧
    byHand.reg 2 = ⟨BitVec.ofNat 64 (byHand.cfg.maxDraw.toNat * 2 ^ 32), 32⟩ ∧
    (next? (exec (.fxexps 5 3) byHand)).map State.halt = some false := by decide +kernel

/-! ## Every hypothesis is met: faults, frames, invariants -/

/-- FXDIV of `F[1]` by `F[3]`, `F[2]` and `F[1]`: a mismatch, a zero divisor, neither. -/
theorem witness_FaultConditionsByCommand :
    (Instr.fxdiv 3 1 2).WellFormed ∧ (holding ⟨5, 64⟩ ⟨0, 64⟩).halt = false ∧
    Mismatch (holding ⟨5, 64⟩ ⟨0, 64⟩) (.fxdiv 3 1 3) ∧ ZeroDivisor (holding ⟨5, 64⟩ ⟨0, 64⟩) (.fxdiv 3 1 2) ∧
    ¬ Mismatch (holding ⟨5, 64⟩ ⟨0, 64⟩) (.fxdiv 3 1 1) ∧ ¬ ZeroDivisor (holding ⟨5, 64⟩ ⟨0, 64⟩) (.fxdiv 3 1 1) := by
  simp only [Mismatch, ZeroDivisor]; decide

/-- Both clauses: a command that faults, and a step on an illegal word. -/
theorem witness_FaultEntryWritesOnlyTheStatus :
    (∃ t, (holding ⟨5, 64⟩ ⟨0, 64⟩).halt = false ∧ exec (.fxdiv 3 1 2) (holding ⟨5, 64⟩ ⟨0, 64⟩) = .next t ∧
      t.halt = true) ∧
    ∃ t, (facing State.reset (.command 0 1 2)).halt = false ∧ step (facing State.reset (.command 0 1 2)) = .next t ∧
      t.halt = true :=
  ⟨⟨_, rfl, rfl, rfl⟩, ⟨_, rfl, rfl, rfl⟩⟩

theorem witness_EveryCommandWritesOnlyItsDestination :
    ∃ t, exec (.fxseti 1) (holding ⟨5, 64⟩ ⟨0, 64⟩) = .next t ∧ destination (.fxseti 1) ≠ some 2 ∧
      Instr.fxseti 1 = .fxseti 1 := ⟨_, rfl, by decide, rfl⟩

theorem witness_OnlyReadingCommandsRespond :
    (∃ t, exec (.fxrdm 1) State.reset = .next t) ∧
    ∃ t, (facing State.reset (.command 0x00001003 0 0)).pending = .command 0x00001003 0 0 :: [] ∧
      step (facing State.reset (.command 0x00001003 0 0)) = .next t := ⟨⟨_, rfl⟩, ⟨_, rfl, rfl⟩⟩

theorem witness_ReadingCommandsAreIdempotent :
    ∃ t, destination (.fxgetd 1) = none ∧ exec (.fxgetd 1) (holding ⟨5, 64⟩ ⟨0, 64⟩) = .next t := ⟨_, rfl, rfl⟩

theorem witness_OtherCommandsIgnoreWdata : readsWdata (.fxexps 2 1) = false := rfl

theorem witness_OtherCommandsIgnoreTheDraw : takesDraw (.fxlog2 2 1) = false := rfl

/-- All clauses: a sample executed, a sample while halted, another command, and no command. -/
theorem witness_OneDrawPerExecutedSample :
    (∃ t, (facing State.reset (.command 0x00001220 0 5)).pending = .command 0x00001220 0 5 :: [] ∧
      step (facing State.reset (.command 0x00001220 0 5)) = .next t ∧
      (facing State.reset (.command 0x00001220 0 5)).halt = false ∧ decode 0x00001220 = .command (.fxexps 2 1)) ∧
    (∃ t, step (facing halted (.command 0x00001220 0 5)) = .next t ∧
      (facing halted (.command 0x00001220 0 5)).halt = true) ∧
    (∃ t, step (facing State.reset (.command 0x00001218 0 5)) = .next t ∧
      ∀ rd ra, decode 0x00001218 ≠ .command (.fxexps rd ra)) ∧
    ∃ t, (∀ c w n rest, State.reset.pending ≠ .command c w n :: rest) ∧ step State.reset = .next t :=
  ⟨⟨_, rfl, rfl, rfl, by decide⟩, ⟨_, rfl, rfl⟩, ⟨_, rfl, by decide⟩, ⟨_, fun _ _ _ _ => nofun, rfl⟩⟩

/-- `F[0]` never loaded, against `F[1]` at precision 0 and `F[2]` at precision 1. -/
theorem witness_UnloadedRegisterBehavesAsZeroAtPrecisionZero :
    (holding ⟨5, 0⟩ ⟨5, 1⟩).halt = false ∧ (holding ⟨5, 0⟩ ⟨5, 1⟩).reg 0 = ⟨0, 0⟩ ∧ (holding ⟨5, 0⟩ ⟨5, 1⟩).prec 1 = 0 ∧
    (holding ⟨5, 0⟩ ⟨5, 1⟩).prec 2 ≠ 0 ∧ (holding ⟨5, 0⟩ ⟨5, 1⟩).cfg.legal := by decide

/-- Loaded at the greatest precision, then stepped. -/
theorem witness_PrecisionsStayInRange :
    ∃ t, PrecisionsInRange (facing State.reset (.command 0x04000101 7 0)) ∧
      step (facing State.reset (.command 0x04000101 7 0)) = .next t :=
  ⟨_, fun r => by revert r; decide, rfl⟩

theorem witness_StatusStaysCoherent :
    ∃ t, StatusCoherent (facing State.reset (.command 0 7 0)) ∧ step (facing State.reset (.command 0 7 0)) = .next t :=
  ⟨_, by simp only [StatusCoherent]; decide, rfl⟩

/-- In a state halted by the all-zero word. -/
theorem witness_RecordedFaultStaysExplained :
    ∃ t, FaultExplained (facing halted (.command 0x02000101 7 0)) ∧
      step (facing halted (.command 0x02000101 7 0)) = .next t :=
  ⟨_, ⟨.undefinedOp, by decide⟩, rfl⟩

end Sys2Proof.Tests
end

section
/-! PROOFS. What a step does with each kind of next event, and that every step and every command answers a next
state (spec/00_scope.md). -/

namespace Sys2Proof.Machine

/-! One equation per next event of the host (R15, R41, R220, R231). -/

theorem step_idle {s : State} (h : s.pending = []) : step s = .next s := by
  rw [step, h]

theorem step_reset {s : State} {rest : List HostEvent} (h : s.pending = .reset :: rest) :
    step s = .next { s with pending := rest }.resetUnit := by
  rw [step, h]

theorem step_command {s : State} {c : CmdWord} {w n : Word} {rest : List HostEvent}
    (h : s.pending = .command c w n :: rest) : step s = runCommand (s.accept rest c w n) := by
  rw [step, h]

/-! The word on the `cmd` port, by what it decodes to (R66, R69). -/

theorem runCommand_of_decode_command {s : State} {i : Instr} (h : decode s.cmd = .command i) :
    runCommand s = exec i s := by
  rw [runCommand, h]

theorem runCommand_of_decode_illegal {s : State} {why : Illegal} (h : decode s.cmd = .illegal why) :
    runCommand s = execIllegal s := by
  rw [runCommand, h]

/-! Every outcome is a next state: a command's, whatever its effect, and so the step's. -/

/-- A command answers whether the unit is halted or not (R206, R207). -/
theorem exec_answers (i : Instr) (s : State) : ∃ t, exec i s = .next t := by
  obtain ⟨f, hf⟩ := exec_eq_onCommand i
  exact ⟨_, hf s⟩

theorem execIllegal_answers (s : State) : ∃ t, execIllegal s = .next t := ⟨_, rfl⟩

theorem runCommand_answers (s : State) : ∃ t, runCommand s = .next t := by
  cases hd : decode s.cmd with
  | command i => rw [runCommand_of_decode_command hd]; exact exec_answers i s
  | illegal why => rw [runCommand_of_decode_illegal hd]; exact execIllegal_answers s

theorem step_answers (s : State) : ∃ t, step s = .next t := by
  match hp : s.pending with
  | [] => exact ⟨_, step_idle hp⟩
  | .reset :: _ => exact ⟨_, step_reset hp⟩
  | .command c w n :: rest => rw [step_command hp]; exact runCommand_answers _

/-- Settles O13, by the kind of the next event and by what its word decodes to. -/
theorem everyStepAnswersANextState : Obligations.EveryStepAnswersANextState :=
  ⟨step_answers, exec_answers⟩

/-- Settles O6: the accepted transaction's word stands on the `cmd` port, where it decodes to the command. -/
theorem stepRunsTheDecodedCommand : Obligations.StepRunsTheDecodedCommand := by
  intro s c w n rest i hp hd
  calc step s = runCommand (s.accept rest c w n) := step_command hp
    _ = exec i (s.accept rest c w n) := runCommand_of_decode_command hd

end Sys2Proof.Machine
end

section
/-! PROOFS. The state: its values after reset, what each command leaves unchanged, and the invariants every step
keeps (spec/10_state.md). -/

namespace Sys2Proof.Machine

open Sys2Proof.Claims

variable {s t : State} {i : Instr}

/-! Registers after reset and after a write, field by field. -/

@[simp] theorem FixedPoint.zero_mag : FixedPoint.zero.mag = 0 := rfl
@[simp] theorem FixedPoint.zero_fb : FixedPoint.zero.fb = 0 := rfl

@[simp] theorem State.resetUnit_mag (s : State) (r : Reg) : s.resetUnit.mag r = 0 := by simp [State.mag]
@[simp] theorem State.resetUnit_prec (s : State) (r : Reg) : s.resetUnit.prec r = 0 := by
  simp [State.prec, State.fb]

@[simp] theorem State.complete_fb_self (s : State) (rd : Reg) (v : FixedPoint) : (s.complete rd v).fb rd = v.fb := by
  simp [State.fb]

/-- The reset state is a state just reset, so what holds after any reset holds of it. -/
theorem State.reset_eq_resetUnit : State.reset = State.reset.resetUnit := rfl

/-! The frame of a command (R25, R36, R206, R207). -/

theorem Ends.reg_eq_of_ne_destination (h : Ends i s t) {r : Reg} (hr : destination i ≠ some r) :
    t.reg r = s.reg r := by
  cases h with
  | writes rd v hd =>
    have hne : r ≠ rd := fun e => hr (e ▸ hd)
    rw [State.complete_reg_ne _ _ _ _ hne, afterDraw_reg]
  | responds v _ => exact s.respond_reg v r
  | faults f => rw [State.raise_reg, afterDraw_reg]

theorem Ends.sameSurroundings (h : Ends i s t) : SameSurroundings s t := by
  cases h <;> simp [SameSurroundings]

theorem exec_reg_eq_of_ne_destination (h : exec i s = .next t) {r : Reg} (hr : destination i ≠ some r) :
    t.reg r = s.reg r := by
  rcases exec_cases h with ⟨-, rfl⟩ | ⟨-, he⟩
  · exact s.ignore_reg r
  · exact he.reg_eq_of_ne_destination hr

theorem exec_sameSurroundings (h : exec i s = .next t) : SameSurroundings s t := by
  rcases exec_cases h with ⟨-, rfl⟩ | ⟨-, he⟩
  · simp [SameSurroundings]
  · exact he.sameSurroundings

/-- A setter leaves the precision of the register it sets (R104, R105). -/
theorem exec_setter_fb {r : Reg} (hi : i = .fxseti r ∨ i = .fxsetd r) (h : exec i s = .next t) : t.fb r = s.fb r := by
  rcases exec_cases h with ⟨-, rfl⟩ | ⟨hrun, -⟩
  · exact s.ignore_fb r
  · rcases hi with rfl | rfl
    · rw [exec_fxseti_running hrun] at h; cases h; exact s.complete_fb_self r _
    · rw [exec_fxsetd_running hrun] at h; cases h; exact s.complete_fb_self r _

/-! A predicate of the state that a reset, accepting a transaction, every command and an illegal word keep is an
invariant of the step (R15). -/

theorem step_keeps {P : State → Prop}
    (hreset : ∀ (u : State) (rest : List HostEvent), P u → P { u with pending := rest }.resetUnit)
    (haccept : ∀ (u : State) (rest : List HostEvent) (c : CmdWord) (w n : Word), P u → P (u.accept rest c w n))
    (hexec : ∀ (i : Instr) (u v : State), P u → exec i u = .next v → P v)
    (hillegal : ∀ u v : State, P u → execIllegal u = .next v → P v)
    (hs : P s) (h : step s = .next t) : P t := by
  match hp : s.pending with
  | [] => rw [step_idle hp] at h; cases h; exact hs
  | .reset :: rest => rw [step_reset hp] at h; cases h; exact hreset s rest hs
  | .command c w n :: rest =>
    rw [step_command hp] at h
    have ha : P (s.accept rest c w n) := haccept s rest c w n hs
    cases hd : decode (s.accept rest c w n).cmd with
    | command i => rw [runCommand_of_decode_command hd] at h; exact hexec i _ t ha h
    | illegal why => rw [runCommand_of_decode_illegal hd] at h; exact hillegal _ t ha h

/-! R24: the shared operations keep every precision in `[0, 64]`; a fault, a response and an ignored command touch no
register. -/

theorem precisionsInRange_resetUnit (s : State) : PrecisionsInRange s.resetUnit := fun r => by simp

theorem PrecisionsInRange.raise (hs : PrecisionsInRange s) (f : UnitFault) : PrecisionsInRange (s.raise f) := hs

theorem PrecisionsInRange.respond (hs : PrecisionsInRange s) (v : Word) : PrecisionsInRange (s.respond v) := hs

theorem PrecisionsInRange.ignore (hs : PrecisionsInRange s) : PrecisionsInRange s.ignore := hs

theorem PrecisionsInRange.complete (hs : PrecisionsInRange s) (rd : Reg) {v : FixedPoint}
    (hv : v.fb.toNat ≤ wordWidth) : PrecisionsInRange (s.complete rd v) := by
  intro r
  by_cases hr : r = rd
  · subst hr; rw [State.prec, State.complete_fb_self]; exact hv
  · rw [State.prec, State.fb, State.complete_reg_ne s rd r v hr]; exact hs r

theorem PrecisionsInRange.finish (hs : PrecisionsInRange s) (rd : Reg) {p : Precision} (hp : p.toNat ≤ wordWidth)
    (b : BlockResult) : PrecisionsInRange (s.finish rd p b) := by
  cases b with
  | value v => exact hs.complete rd hp
  | fault f => exact hs.raise f

/-- The 7-bit field holds every legal immediate unchanged (R63). -/
theorem immPrecision_toNat_of_le {imm : BitVec 8} (h : imm.toNat ≤ 64) : (immPrecision imm).toNat = imm.toNat := by
  rw [immPrecision, BitVec.toNat_ofNat]; omega

/-- What a command stores is at a checked immediate, at the precision of a register, or at 32. -/
theorem exec_keeps_precisionsInRange (hs : PrecisionsInRange s) (h : exec i s = .next t) : PrecisionsInRange t := by
  rcases exec_cases h with ⟨-, rfl⟩ | ⟨hrun, -⟩
  · exact hs.ignore
  cases i with
  | fxld rd imm =>
    rw [exec_fxld_running hrun] at h; cases h
    split
    case isTrue himm => exact hs.complete rd ((immPrecision_toNat_of_le himm).trans_le himm)
    case isFalse => exact hs.raise _
  | fxmov rd ra => rw [exec_fxmov_running hrun] at h; cases h; exact hs.complete rd (hs ra)
  | fxrdm ra => rw [exec_fxrdm_running hrun] at h; cases h; exact hs.respond _
  | fxrdp ra => rw [exec_fxrdp_running hrun] at h; cases h; exact hs.respond _
  | fxseti rd => rw [exec_fxseti_running hrun] at h; cases h; exact hs.complete rd (hs rd)
  | fxsetd rd => rw [exec_fxsetd_running hrun] at h; cases h; exact hs.complete rd (hs rd)
  | fxgeti ra => rw [exec_fxgeti_running hrun] at h; cases h; exact hs.respond _
  | fxgetd ra => rw [exec_fxgetd_running hrun] at h; cases h; exact hs.respond _
  | fxmul rd ra rb =>
    rw [exec_fxmul_running hrun] at h; cases h
    split
    · exact hs.raise _
    · exact hs.complete rd (hs ra)
  | fxdiv rd ra rb =>
    rw [exec_fxdiv_running hrun] at h; cases h
    split
    · exact hs.raise _
    · exact hs.finish rd (hs ra) _
  | fxlog2 rd ra => rw [exec_fxlog2_running hrun] at h; cases h; exact hs.complete rd (hs ra)
  | fxln rd ra =>
    rw [exec_fxln_running hrun] at h; cases h
    split
    · exact hs.raise _
    · exact hs.complete rd (show ln2Fb.toNat ≤ wordWidth by decide)
  | fxexps rd ra =>
    rw [exec_fxexps_running hrun] at h; cases h
    exact PrecisionsInRange.finish (s := s.takeDraw) hs rd (hs ra) _

theorem execIllegal_keeps_precisionsInRange (hs : PrecisionsInRange s) (h : execIllegal s = .next t) :
    PrecisionsInRange t := by
  rcases execIllegal_cases h with ⟨-, rfl⟩ | ⟨-, rfl⟩
  · exact hs.ignore
  · exact hs.raise _

/-! R30 and R31: the status is coherent after a fault and after a reset, and wherever it has not changed. -/

theorem statusCoherent_iff (s : State) :
    StatusCoherent s ↔ (s.cause = .none ↔ s.halt = false) ∧ (s.halt = false → s.fcmd = 0) := by
  rw [StatusCoherent, State.causePort_eq_zero_iff, State.haltPort_eq_zero_iff, State.fcmdPort]

theorem statusCoherent_resetUnit (s : State) : StatusCoherent s.resetUnit := by
  simp [statusCoherent_iff]

theorem UnitFault.cause_ne_none (f : UnitFault) : f.cause ≠ .none := by
  cases f <;> decide

theorem statusCoherent_raise (s : State) (f : UnitFault) : StatusCoherent (s.raise f) := by
  simp [statusCoherent_iff, f.cause_ne_none]

theorem StatusCoherent.of_sameStatus (hs : StatusCoherent s) (h : SameStatus s t) : StatusCoherent t := by
  obtain ⟨hhalt, hcause, hfcmd⟩ := h
  rwa [statusCoherent_iff, hhalt, hcause, hfcmd, ← statusCoherent_iff]

theorem Ends.keeps_statusCoherent (he : Ends i s t) (hs : StatusCoherent s) : StatusCoherent t := by
  cases he with
  | writes rd v _ => exact hs.of_sameStatus (by simp [SameStatus])
  | responds v _ => exact hs.of_sameStatus (by simp [SameStatus])
  | faults f => exact statusCoherent_raise _ f

theorem exec_keeps_statusCoherent (hs : StatusCoherent s) (h : exec i s = .next t) : StatusCoherent t := by
  rcases exec_cases h with ⟨-, rfl⟩ | ⟨-, he⟩
  · exact hs.of_sameStatus (by simp [SameStatus])
  · exact he.keeps_statusCoherent hs

theorem execIllegal_keeps_statusCoherent (hs : StatusCoherent s) (h : execIllegal s = .next t) :
    StatusCoherent t := by
  rcases execIllegal_cases h with ⟨-, rfl⟩ | ⟨-, rfl⟩
  · exact hs.of_sameStatus (by simp [SameStatus])
  · exact statusCoherent_raise s _

theorem faultExplained_resetUnit (s : State) : FaultExplained s.resetUnit := trivial

/-! R36: no command and no illegal word changes a parameter. -/

theorem exec_cfg (h : exec i s = .next t) : t.cfg = s.cfg := by
  obtain ⟨hcfg, -⟩ := exec_sameSurroundings h
  exact hcfg

theorem execIllegal_cfg (h : execIllegal s = .next t) : t.cfg = s.cfg := by
  rcases execIllegal_cases h with ⟨-, rfl⟩ | ⟨-, rfl⟩
  · exact s.ignore_cfg
  · exact s.raise_cfg _

/-- A fault, taken after the command's draw if it takes one, is what R206 says. -/
theorem faulted_afterDraw_raise (i : Instr) (s : State) (f : UnitFault) :
    Faulted f.cause.code.toNat (drawCount i) s ((afterDraw i s).raise f) := by
  have hhalt : ((afterDraw i s).raise f).haltPort = 1 := rfl
  have hcause : ((afterDraw i s).raise f).causePort = f.cause.code := rfl
  refine ⟨hhalt, by rw [hcause], ?_, ?_, ?_, ?_, rfl, ?_⟩
  · rw [State.statusWord_toNat, hhalt, hcause]; rfl
  · exact afterDraw_cmd i s
  · exact fun r => by simp
  · simp [SameSurroundings]
  · simp

/-! A register at its reset value, `(0, 0)` (R37, R234). -/

section Unloaded

variable {ra : Reg} (hra : s.reg ra = ⟨0, 0⟩)
include hra

theorem unloaded_mag : s.mag ra = 0 := by rw [State.mag, hra]
theorem unloaded_fb : s.fb ra = 0 := by rw [State.fb, hra]
theorem unloaded_prec : s.prec ra = 0 := by rw [State.prec, unloaded_fb hra]; rfl

theorem fb_ne_unloaded_fb {rb : Reg} (hrb : s.prec rb ≠ 0) : s.fb rb ≠ s.fb ra := fun hfb =>
  hrb (by rw [State.prec, hfb]; exact unloaded_prec hra)

variable (hrun : s.halt = false)
include hrun

theorem exec_fxrdm_unloaded : exec (.fxrdm ra) s = .next (s.respond 0) := by
  rw [exec_fxrdm_running hrun, unloaded_mag hra]

theorem exec_fxrdp_unloaded : exec (.fxrdp ra) s = .next (s.respond 0) := by
  rw [exec_fxrdp_running hrun, unloaded_fb hra]; rfl

theorem exec_fxdiv_by_unloaded_zero_precision (rd : Reg) {rb : Reg} (hrb : s.prec rb = 0) :
    exec (.fxdiv rd rb ra) s = .next (s.raise .divideByZero) := by
  have hfb : s.fb rb = s.fb ra := by rw [unloaded_fb hra]; exact BitVec.eq_of_toNat_eq hrb
  rw [exec_fxdiv_running hrun, if_neg (not_not_intro hfb), unloaded_mag hra, fxDiv_zero, State.finish_fault]

theorem exec_fxmul_by_unloaded_mismatch (rd : Reg) {rb : Reg} (hrb : s.prec rb ≠ 0) :
    exec (.fxmul rd rb ra) s = .next (s.raise .precisionMismatch) := by
  rw [exec_fxmul_running hrun, if_pos (fb_ne_unloaded_fb hra hrb)]

theorem exec_fxdiv_by_unloaded_mismatch (rd : Reg) {rb : Reg} (hrb : s.prec rb ≠ 0) :
    exec (.fxdiv rd rb ra) s = .next (s.raise .precisionMismatch) := by
  rw [exec_fxdiv_running hrun, if_pos (fb_ne_unloaded_fb hra hrb)]

/-- Precision 0 is outside the logarithm's domain (R151, R204). -/
theorem exec_fxlog2_unloaded (rd : Reg) : exec (.fxlog2 rd ra) s = .next (s.complete rd ⟨s.cfg.sentinel, 0⟩) := by
  have hlog : fxLog2 s.cfg (s.mag ra) (s.prec ra) = s.cfg.sentinel := by
    rw [unloaded_prec hra]; exact if_pos (by decide)
  rw [exec_fxlog2_running hrun, hlog, unloaded_fb hra]

theorem exec_fxln_unloaded (rd : Reg) : exec (.fxln rd ra) s = .next (s.raise .precisionMismatch) := by
  have hfb : s.fb ra ≠ ln2Fb := by rw [unloaded_fb hra]; decide
  rw [exec_fxln_running hrun, if_pos hfb]

/-- At precision 0 the shifted maximum is `M` itself, so a legal `M` passes the first divide (R12, R180). -/
theorem exec_fxexps_unloaded (rd : Reg) (hcfg : s.cfg.legal) :
    exec (.fxexps rd ra) s = .next (s.takeDraw.raise .precisionMismatch) := by
  have hmax : s.cfg.maxDraw.toNat * 2 ^ (0 : Precision).toNat % 2 ^ 64 ≠ 0 := by
    have h0 : s.cfg.maxDraw.toNat ≠ 0 := fun e => hcfg (BitVec.eq_of_toNat_eq e)
    have hlt := s.cfg.maxDraw.isLt
    simpa [Nat.mod_eq_of_lt hlt] using h0
  have hfb : (0 : Precision) ≠ ln2Fb := by decide
  rw [exec_fxexps_running hrun, unloaded_fb hra, fxExps_max_ne_zero _ _ _ _ hmax, if_pos hfb, State.finish_fault]

end Unloaded

/-! The obligations. -/

/-- Settles O55: a reset makes every precision 0, and the commands keep R24. -/
theorem precisionsStayInRange : Obligations.PrecisionsStayInRange := fun _ _ =>
  step_keeps (hreset := fun u rest _ => precisionsInRange_resetUnit { u with pending := rest })
    (haccept := fun _ _ _ _ _ hu => hu)
    (hexec := fun _ _ _ => exec_keeps_precisionsInRange)
    (hillegal := fun _ _ => execIllegal_keeps_precisionsInRange)

/-- Settles O56: a reset and a fault each write the whole status coherently, and nothing else writes it. -/
theorem statusStaysCoherent : Obligations.StatusStaysCoherent := fun _ _ =>
  step_keeps (hreset := fun u rest _ => statusCoherent_resetUnit { u with pending := rest })
    (haccept := fun _ _ _ _ _ hu => hu)
    (hexec := fun _ _ _ => exec_keeps_statusCoherent)
    (hillegal := fun _ _ => execIllegal_keeps_statusCoherent)

/-- Settles O15: having the parameters of `s` is an invariant of the step. -/
theorem parametersNeverChange : Obligations.ParametersNeverChange := fun s _ =>
  step_keeps (P := fun u => u.cfg = s.cfg) (hreset := fun _ _ hu => hu) (haccept := fun _ _ _ _ _ hu => hu)
    (hexec := fun _ _ _ hu h => (exec_cfg h).trans hu)
    (hillegal := fun _ _ hu h => (execIllegal_cfg h).trans hu) rfl

/-- Settles O48, from the frame of a command. -/
theorem everyCommandWritesOnlyItsDestination : Obligations.EveryCommandWritesOnlyItsDestination := fun _ _ _ h =>
  ⟨fun _ hr => exec_reg_eq_of_ne_destination h hr, fun _ hi => exec_setter_fb hi h, exec_sameSurroundings h⟩

/-- Settles O54, one command after another on the register at `(0, 0)`. -/
theorem unloadedRegisterBehavesAsZeroAtPrecisionZero : Obligations.UnloadedRegisterBehavesAsZeroAtPrecisionZero := by
  intro s rd ra rb hrun hra
  refine ⟨⟨_, exec_fxrdm_unloaded hra hrun, rfl⟩, ⟨_, exec_fxrdp_unloaded hra hrun, rfl⟩, fun hrb => ?_,
    fun hrb => ⟨?_, ?_⟩, ?_, ?_, fun hcfg => ?_⟩
  · exact ⟨_, exec_fxdiv_by_unloaded_zero_precision hra hrun rd hrb, faulted_afterDraw_raise (.fxdiv rd rb ra) s _⟩
  · exact ⟨_, exec_fxmul_by_unloaded_mismatch hra hrun rd hrb, faulted_afterDraw_raise (.fxmul rd rb ra) s _⟩
  · exact ⟨_, exec_fxdiv_by_unloaded_mismatch hra hrun rd hrb, faulted_afterDraw_raise (.fxdiv rd rb ra) s _⟩
  · exact ⟨_, exec_fxlog2_unloaded hra hrun rd, s.complete_reg_self rd _⟩
  · exact ⟨_, exec_fxln_unloaded hra hrun rd, faulted_afterDraw_raise (.fxln rd ra) s _⟩
  · exact ⟨_, exec_fxexps_unloaded hra hrun rd hcfg, faulted_afterDraw_raise (.fxexps rd ra) s _⟩

/-- Settles O10: the step on a reset event is `State.resetUnit`. -/
theorem resetEventClearsTheUnit : Obligations.ResetEventClearsTheUnit := by
  intro s rest hp
  exact ⟨_, step_reset hp, fun r => by simp, rfl, rfl, rfl, rfl, rfl, rfl, rfl⟩

/-- Settles O11: the reset state is a state just reset. -/
theorem resetStateHasTheSpecValues : Obligations.ResetStateHasTheSpecValues := by
  rw [Obligations.ResetStateHasTheSpecValues, State.reset_eq_resetUnit]
  exact ⟨fun r => by simp, rfl, rfl, rfl, rfl⟩

/-- Settles O58: the invariants hold after any reset. -/
theorem resetMeetsTheInvariants : Obligations.ResetMeetsTheInvariants :=
  ⟨precisionsInRange_resetUnit State.reset, statusCoherent_resetUnit State.reset, faultExplained_resetUnit State.reset⟩

end Sys2Proof.Machine
end

section
/-! PROOFS. The ports: the order of the host's events, which commands respond, and which commands read the `wdata` word
or ask for a draw (spec/20_memory.md). -/

namespace Sys2Proof.Machine

open Sys2Proof.Claims

variable {s t : State} {i : Instr} {c : CmdWord} {w n : Word} {rest : List HostEvent}

/-! A presented word, by what it decodes to and by `HALT` (R66, R69, R207). -/

theorem step_of_decode_command (hp : s.pending = .command c w n :: rest) (hd : decode c = .command i) :
    step s = exec i (s.accept rest c w n) :=
  stepRunsTheDecodedCommand s c w n rest i hp hd

theorem step_of_decode_illegal {why : Illegal} (hp : s.pending = .command c w n :: rest)
    (hd : decode c = .illegal why) : step s = execIllegal (s.accept rest c w n) :=
  (step_command hp).trans (runCommand_of_decode_illegal hd)

theorem step_command_of_halted (hp : s.pending = .command c w n :: rest) (hh : s.halt = true) :
    step s = .next (s.accept rest c w n).ignore := by
  have hacc : (s.accept rest c w n).halt = true := hh
  cases hd : decode c with
  | command i => rw [step_of_decode_command hp hd, exec_halted i hacc]
  | illegal why => rw [step_of_decode_illegal hp hd, execIllegal, State.onCommand_halted hacc]

/-! Whatever stands on the `cmd` port, executing it leaves the other inputs alone (R36, R41). -/

theorem execIllegal_sameSurroundings (h : execIllegal s = .next t) : SameSurroundings s t := by
  rcases execIllegal_cases h with ⟨-, rfl⟩ | ⟨-, rfl⟩ <;> simp [SameSurroundings]

theorem runCommand_sameSurroundings (h : runCommand s = .next t) : SameSurroundings s t := by
  cases hd : decode s.cmd with
  | command i => exact exec_sameSurroundings (runCommand_of_decode_command hd ▸ h)
  | illegal why => exact execIllegal_sameSurroundings (runCommand_of_decode_illegal hd ▸ h)

/-- Settles O14, by the kind of the next event. -/
theorem eventsAreTakenInOrder : Obligations.EventsAreTakenInOrder := by
  intro s t h
  match hp : s.pending with
  | [] => rw [step_idle hp] at h; cases h; exact hp
  | .reset :: rest => rw [step_reset hp] at h; cases h; rfl
  | .command c w n :: rest =>
    rw [step_command hp] at h
    obtain ⟨-, hpending, -⟩ := runCommand_sameSurroundings h
    exact hpending

/-! Responses (R42): the commands without a destination cannot fault, the others do not respond. -/

/-- A reading command of a running unit responds with a word that the registers alone determine (R102, R103, R106,
R107). -/
theorem exec_reading_running (hd : destination i = none) :
    ∃ v : Vector FixedPoint 16 → Word, ∀ s : State, s.halt = false → exec i s = .next (s.respond (v s.F)) := by
  cases i with
  | fxrdm ra => exact ⟨fun F => F[ra].mag, fun _ h => exec_fxrdm_running h ra⟩
  | fxrdp ra => exact ⟨fun F => F[ra].fb.zeroExtend 64, fun _ h => exec_fxrdp_running h ra⟩
  | fxgeti ra => exact ⟨fun F => integralPart F[ra].mag F[ra].fb.toNat, fun _ h => exec_fxgeti_running h ra⟩
  | fxgetd ra => exact ⟨fun F => fractionalPart F[ra].mag F[ra].fb.toNat, fun _ h => exec_fxgetd_running h ra⟩
  | fxld | fxmov | fxseti | fxsetd | fxmul | fxdiv | fxlog2 | fxln | fxexps => cases hd

theorem Ends.rdata_eq_none {rd : Reg} (he : Ends i s t) (hd : destination i = some rd) : t.rdata = none := by
  cases he with
  | writes _ _ _ => rfl
  | responds _ hnone => rw [hd] at hnone; cases hnone
  | faults _ => rfl

theorem exec_rdata_isSome_iff (h : exec i s = .next t) :
    t.rdata.isSome = true ↔ s.halt = false ∧ destination i = none := by
  rcases exec_cases h with ⟨hh, rfl⟩ | ⟨hrun, he⟩
  · simp [hh]
  · cases hd : destination i with
    | none =>
      obtain ⟨v, hv⟩ := exec_reading_running hd
      rw [hv s hrun] at h; cases h; simp [hrun]
    | some rd => simp [he.rdata_eq_none hd]

theorem execIllegal_rdata (h : execIllegal s = .next t) : t.rdata = none := by
  rcases execIllegal_cases h with ⟨-, rfl⟩ | ⟨-, rfl⟩ <;> rfl

/-- Settles O49: by whether the command has a destination, and for a step by what the word decodes to. -/
theorem onlyReadingCommandsRespond : Obligations.OnlyReadingCommandsRespond := by
  refine ⟨fun _ _ _ => exec_rdata_isSome_iff, fun s t c w n rest hp h => ?_⟩
  cases hd : decode c with
  | command i =>
    rw [step_of_decode_command hp hd] at h
    simp [exec_rdata_isSome_iff h]
  | illegal why =>
    rw [step_of_decode_illegal hp hd] at h
    simp [execIllegal_rdata h]

/-- Settles O50: a response leaves the registers that determine it, and ignoring twice is ignoring. -/
theorem readingCommandsAreIdempotent : Obligations.ReadingCommandsAreIdempotent := by
  intro i s t hd h
  rcases exec_cases h with ⟨hh, rfl⟩ | ⟨hrun, -⟩
  · exact exec_halted (s := s.ignore) i hh
  · obtain ⟨v, hv⟩ := exec_reading_running hd
    rw [hv s hrun] at h; cases h
    exact hv (s.respond (v s.F)) hrun

/-! The input ports (R41, R44). -/

/-- The same state with other words on the `wdata` and `rnd` ports. -/
def State.withPorts (s : State) (w n : Word) : State := { s with wdata := w, rnd := n }

theorem State.withPorts_finish (s : State) (rd : Reg) (p : Precision) (b : BlockResult) (w n : Word) :
    (s.finish rd p b).withPorts w n = (s.withPorts w n).finish rd p b := by
  cases b <;> rfl

theorem State.withPorts_ite (P : Prop) [Decidable P] (u v : State) (w n : Word) :
    (if P then u else v).withPorts w n = if P then u.withPorts w n else v.withPorts w n :=
  apply_ite (State.withPorts · w n) P u v

/-- A command depends on the `wdata` word only if it reads it, and on the draw only if it takes one. -/
theorem exec_withPorts (hw : readsWdata i = true → w = s.wdata) (hn : takesDraw i = true → n = s.rnd)
    (h : exec i s = .next t) : exec i (s.withPorts w n) = .next (t.withPorts w n) := by
  rcases exec_cases h with ⟨hh, rfl⟩ | ⟨hrun, -⟩
  · exact exec_halted (s := s.withPorts w n) i hh
  have hrun' : (s.withPorts w n).halt = false := hrun
  cases i with
  | fxld rd imm =>
    obtain rfl := hw rfl
    rw [exec_fxld_running hrun] at h; cases h
    rw [exec_fxld_running hrun', State.withPorts_ite]; rfl
  | fxmov rd ra => rw [exec_fxmov_running hrun] at h; cases h; exact exec_fxmov_running hrun' rd ra
  | fxrdm ra => rw [exec_fxrdm_running hrun] at h; cases h; exact exec_fxrdm_running hrun' ra
  | fxrdp ra => rw [exec_fxrdp_running hrun] at h; cases h; exact exec_fxrdp_running hrun' ra
  | fxseti rd =>
    obtain rfl := hw rfl
    rw [exec_fxseti_running hrun] at h; cases h; exact exec_fxseti_running hrun' rd
  | fxsetd rd =>
    obtain rfl := hw rfl
    rw [exec_fxsetd_running hrun] at h; cases h; exact exec_fxsetd_running hrun' rd
  | fxgeti ra => rw [exec_fxgeti_running hrun] at h; cases h; exact exec_fxgeti_running hrun' ra
  | fxgetd ra => rw [exec_fxgetd_running hrun] at h; cases h; exact exec_fxgetd_running hrun' ra
  | fxmul rd ra rb =>
    rw [exec_fxmul_running hrun] at h; cases h
    rw [exec_fxmul_running hrun', State.withPorts_ite]; rfl
  | fxdiv rd ra rb =>
    rw [exec_fxdiv_running hrun] at h; cases h
    rw [exec_fxdiv_running hrun', State.withPorts_ite, State.withPorts_finish]; rfl
  | fxlog2 rd ra => rw [exec_fxlog2_running hrun] at h; cases h; exact exec_fxlog2_running hrun' rd ra
  | fxln rd ra =>
    rw [exec_fxln_running hrun] at h; cases h
    rw [exec_fxln_running hrun', State.withPorts_ite]; rfl
  | fxexps rd ra =>
    obtain rfl := hn rfl
    rw [exec_fxexps_running hrun] at h; cases h
    rw [exec_fxexps_running hrun', State.withPorts_finish]; rfl

/-- Settles O51: only the `wdata` word changes, and the command does not read it. -/
theorem otherCommandsIgnoreWdata : Obligations.OtherCommandsIgnoreWdata := by
  intro i s w hw
  obtain ⟨t, ht⟩ := exec_answers i s
  obtain ⟨-, -, -, -, hrnd⟩ := exec_sameSurroundings ht
  have hports : exec i (s.withPorts w s.rnd) = .next (t.withPorts w s.rnd) :=
    exec_withPorts (by simp [hw]) (fun _ => rfl) ht
  have hkept : t.withPorts w s.rnd = { t with wdata := w } := by rw [← hrnd]; rfl
  exact ⟨t, ht, hkept ▸ hports⟩

/-- Settles O52: only the draw changes, and the command does not take it. -/
theorem otherCommandsIgnoreTheDraw : Obligations.OtherCommandsIgnoreTheDraw := by
  intro i s n hn
  obtain ⟨t, ht⟩ := exec_answers i s
  obtain ⟨-, -, -, hwdata, -⟩ := exec_sameSurroundings ht
  have hports : exec i (s.withPorts s.wdata n) = .next (t.withPorts s.wdata n) :=
    exec_withPorts (fun _ => rfl) (by simp [hn]) ht
  have hkept : t.withPorts s.wdata n = { t with rnd := n } := by rw [← hwdata]; rfl
  exact ⟨t, ht, hkept ▸ hports⟩

/-! Draws asked for (R44, R181, R207). -/

theorem drawCount_of_destination_none (hd : destination i = none) : drawCount i = 0 := by
  cases i with
  | fxexps => cases hd
  | fxld | fxmov | fxrdm | fxrdp | fxseti | fxsetd | fxgeti | fxgetd | fxmul | fxdiv | fxlog2 | fxln => rfl

theorem drawCount_of_ne_fxexps (hi : ∀ rd ra, i ≠ .fxexps rd ra) : drawCount i = 0 := by
  cases i with
  | fxexps rd ra => exact absurd rfl (hi rd ra)
  | fxld | fxmov | fxrdm | fxrdp | fxseti | fxsetd | fxgeti | fxgetd | fxmul | fxdiv | fxlog2 | fxln => rfl

theorem Ends.drawsTaken (he : Ends i s t) : t.drawsTaken = s.drawsTaken + drawCount i := by
  cases he with
  | writes rd v _ => rw [State.complete_drawsTaken, afterDraw_drawsTaken]
  | responds v hd => rw [State.respond_drawsTaken, drawCount_of_destination_none hd, Nat.add_zero]
  | faults f => rw [State.raise_drawsTaken, afterDraw_drawsTaken]

/-- A halted unit asks for no draw, a running one for as many as the command takes, whether or not it faults. -/
theorem exec_drawsTaken (h : exec i s = .next t) :
    t.drawsTaken = s.drawsTaken + if s.halt then 0 else drawCount i := by
  rcases exec_cases h with ⟨hh, rfl⟩ | ⟨hrun, he⟩
  · simp [hh]
  · simp [hrun, he.drawsTaken]

theorem execIllegal_drawsTaken (h : execIllegal s = .next t) : t.drawsTaken = s.drawsTaken := by
  rcases execIllegal_cases h with ⟨-, rfl⟩ | ⟨-, rfl⟩ <;> rfl

theorem step_fxexps_drawsTaken {rd ra : Reg} (hp : s.pending = .command c w n :: rest)
    (hd : decode c = .command (.fxexps rd ra)) (hrun : s.halt = false) (h : step s = .next t) :
    t.drawsTaken = s.drawsTaken + 1 := by
  rw [step_of_decode_command hp hd] at h
  simp [exec_drawsTaken h, hrun, drawCount, takesDraw]

theorem step_drawsTaken_of_halted (hp : s.pending = .command c w n :: rest) (hh : s.halt = true)
    (h : step s = .next t) : t.drawsTaken = s.drawsTaken := by
  rw [step_command_of_halted hp hh] at h; cases h; rfl

theorem step_drawsTaken_of_ne_fxexps (hp : s.pending = .command c w n :: rest)
    (hd : ∀ rd ra, decode c ≠ .command (.fxexps rd ra)) (h : step s = .next t) : t.drawsTaken = s.drawsTaken := by
  cases hc : decode c with
  | command i =>
    have hi : drawCount i = 0 := drawCount_of_ne_fxexps fun rd ra e => hd rd ra (e ▸ hc)
    rw [step_of_decode_command hp hc] at h
    simp [exec_drawsTaken h, hi]
  | illegal why =>
    rw [step_of_decode_illegal hp hc] at h
    simp [execIllegal_drawsTaken h]

theorem step_drawsTaken_of_no_command (hp : ∀ c w n rest, s.pending ≠ .command c w n :: rest)
    (h : step s = .next t) : t.drawsTaken = s.drawsTaken := by
  match hev : s.pending with
  | [] => rw [step_idle hev] at h; cases h; rfl
  | .reset :: rest => rw [step_reset hev] at h; cases h; rfl
  | .command c w n :: rest => exact absurd hev (hp c w n rest)

/-- Settles O53, one clause after another. -/
theorem oneDrawPerExecutedSample : Obligations.OneDrawPerExecutedSample := by
  refine ⟨fun s t c w n rest hp h => ⟨?_, ?_⟩, fun s t => step_drawsTaken_of_no_command⟩
  · rintro hrun ⟨rd, ra, hd⟩
    exact step_fxexps_drawsTaken hp hd hrun h
  · rintro (hh | hd)
    · exact step_drawsTaken_of_halted hp hh h
    · exact step_drawsTaken_of_ne_fxexps hp hd h

end Sys2Proof.Machine
end

section
/-! PROOFS. The command words: decoding and encoding are inverse, the masks and matches, and the illegal words
(spec/30_encoding.md). -/

namespace Sys2Proof

open Sys2Proof.Claims Sys2Proof.Laws.EncodedFields

variable {w : CmdWord} {f : Format} {i : Instr}

/-! The decoder by the row it takes (R66). -/

theorem decode_of_opRow_none (h : opRow w = none) : decode w = .illegal .undefinedOp := by
  rw [decode, h]

/-- A word is a command exactly when its row makes that command and steps (2) and (3) of R66 refuse nothing. -/
theorem decode_eq_command_iff :
    decode w = .command i ↔ ∃ f, opRow w = some (f, i) ∧ unusedAreZero f w = true ∧ i.WellFormed := by
  cases hrow : opRow w with
  | none => simp [decode, hrow]
  | some row =>
    obtain ⟨f, j⟩ := row
    simp only [decode, hrow, Option.some.injEq, Prod.mk.injEq]
    split_ifs with hzero hwf
    · constructor
      · rintro ⟨⟩
        exact ⟨f, ⟨rfl, rfl⟩, hzero, hwf⟩
      · rintro ⟨-, ⟨-, rfl⟩, -, -⟩
        rfl
    · exact iff_of_false nofun (by rintro ⟨_, ⟨_, rfl⟩, _, hwf'⟩; exact hwf hwf')
    · exact iff_of_false nofun (by rintro ⟨_, ⟨rfl, _⟩, hzero', _⟩; exact hzero hzero')

/-! What an encoded command holds, for every command (R61, R62, R65). -/

theorem encodedFields (i : Instr) : Statement i := by
  cases i with
  | fxld rd imm => exact fxld rd imm
  | fxmov rd ra => exact fxmov rd ra
  | fxrdm ra => exact fxrdm ra
  | fxrdp ra => exact fxrdp ra
  | fxseti rd => exact fxseti rd
  | fxsetd rd => exact fxsetd rd
  | fxgeti ra => exact fxgeti ra
  | fxgetd ra => exact fxgetd ra
  | fxmul rd ra rb => exact fxmul rd ra rb
  | fxdiv rd ra rb => exact fxdiv rd ra rb
  | fxlog2 rd ra => exact fxlog2 rd ra
  | fxln rd ra => exact fxln rd ra
  | fxexps rd ra => exact fxexps rd ra

/-- Settles O2: the encoded word selects the command's own row, with every unused field zero. -/
theorem decodeOfEncodeIsTheCommand : Obligations.DecodeOfEncodeIsTheCommand := by
  intro i hwf
  obtain ⟨-, f, hrow, hzero⟩ := encodedFields i
  exact decode_eq_command_iff.2 ⟨f, hrow, hzero, hwf⟩

/-! A row by its command: the format and `op` value are the command's, the operands are the word's. -/

/-- The format of a command (R62). -/
def Instr.format : Instr → Format
  | .fxld _ _ => .LI
  | .fxmov _ _ | .fxlog2 _ _ | .fxln _ _ | .fxexps _ _ => .R2
  | .fxseti _ | .fxsetd _ => .RD
  | .fxrdm _ | .fxrdp _ | .fxgeti _ | .fxgetd _ => .RS
  | .fxmul _ _ _ | .fxdiv _ _ _ => .R3

/-- The command of the same row with its operands read from the fields of `w` (R64). -/
def Instr.withOperandsOf (w : CmdWord) : Instr → Instr
  | .fxld _ _ => .fxld (regOf (rdField w)) (immField w)
  | .fxmov _ _ => .fxmov (regOf (rdField w)) (regOf (raField w))
  | .fxrdm _ => .fxrdm (regOf (raField w))
  | .fxrdp _ => .fxrdp (regOf (raField w))
  | .fxseti _ => .fxseti (regOf (rdField w))
  | .fxsetd _ => .fxsetd (regOf (rdField w))
  | .fxgeti _ => .fxgeti (regOf (raField w))
  | .fxgetd _ => .fxgetd (regOf (raField w))
  | .fxmul _ _ _ => .fxmul (regOf (rdField w)) (regOf (raField w)) (regOf (rbField w))
  | .fxdiv _ _ _ => .fxdiv (regOf (rdField w)) (regOf (raField w)) (regOf (rbField w))
  | .fxlog2 _ _ => .fxlog2 (regOf (rdField w)) (regOf (raField w))
  | .fxln _ _ => .fxln (regOf (rdField w)) (regOf (raField w))
  | .fxexps _ _ => .fxexps (regOf (rdField w)) (regOf (raField w))

section WithOperandsOf

variable (w : CmdWord) (i : Instr)

@[simp] theorem opcode_withOperandsOf : opcode (i.withOperandsOf w) = opcode i := by cases i <;> rfl
@[simp] theorem format_withOperandsOf : (i.withOperandsOf w).format = i.format := by cases i <;> rfl
@[simp] theorem mnemonic_withOperandsOf : mnemonic (i.withOperandsOf w) = mnemonic i := by cases i <;> rfl
@[simp] theorem withOperandsOf_idem : (i.withOperandsOf w).withOperandsOf w = i.withOperandsOf w := by cases i <;> rfl

/-- Only the immediate of FXLD can be refused (R63, R70). -/
theorem withOperandsOf_wellFormed_iff :
    (i.withOperandsOf w).WellFormed ↔ (i.format = .LI → (immField w).toNat ≤ 64) := by
  cases i with
  | fxld rd imm => rw [Instr.withOperandsOf, wellFormed_fxld]; exact ⟨fun h _ => h, fun h => h rfl⟩
  | fxmov | fxrdm | fxrdp | fxseti | fxsetd | fxgeti | fxgetd | fxmul | fxdiv | fxlog2 | fxln | fxexps =>
    exact iff_of_true rfl (fun h => nomatch h)

end WithOperandsOf

theorem opRow_eq_some_iff :
    opRow w = some (f, i) ↔ (opField w).toNat = opcode i ∧ f = i.format ∧ i.withOperandsOf w = i := by
  constructor
  · intro h
    unfold opRow at h
    split at h <;> cases h <;> exact ⟨‹_›, rfl, rfl⟩
  · rintro ⟨hop, rfl, hi⟩
    rw [opRow, hop]
    cases i <;> exact congrArg (fun j => some (_, j)) hi

/-- The decoder in the terms of R66: the `op` value, the operands as read, the unused fields, the immediate. -/
theorem decode_eq_command_iff_fields : decode w = .command i ↔ (opField w).toNat = opcode i ∧
    i.withOperandsOf w = i ∧ unusedAreZero i.format w = true ∧ i.WellFormed := by
  rw [decode_eq_command_iff]
  constructor
  · rintro ⟨f, hrow, hzero, hwf⟩
    obtain ⟨hop, rfl, hi⟩ := opRow_eq_some_iff.1 hrow
    exact ⟨hop, hi, hzero, hwf⟩
  · rintro ⟨hop, hi, hzero, hwf⟩
    exact ⟨i.format, opRow_eq_some_iff.2 ⟨hop, rfl, hi⟩, hzero, hwf⟩

/-! The unused fields of each format (R62, R68). -/

section UnusedFields

variable (w : CmdWord)

theorem unusedAreZero_LI : unusedAreZero .LI w = true ↔ zField w = 0 ∧ raField w = 0 ∧ rbField w = 0 := by
  simp [unusedAreZero]
theorem unusedAreZero_R2 : unusedAreZero .R2 w = true ↔ zField w = 0 ∧ rbField w = 0 ∧ immField w = 0 := by
  simp [unusedAreZero]
theorem unusedAreZero_RD :
    unusedAreZero .RD w = true ↔ zField w = 0 ∧ raField w = 0 ∧ rbField w = 0 ∧ immField w = 0 := by
  simp [unusedAreZero, and_assoc]
theorem unusedAreZero_RS :
    unusedAreZero .RS w = true ↔ zField w = 0 ∧ rdField w = 0 ∧ rbField w = 0 ∧ immField w = 0 := by
  simp [unusedAreZero, and_assoc]
theorem unusedAreZero_R3 : unusedAreZero .R3 w = true ↔ zField w = 0 ∧ immField w = 0 := by
  simp [unusedAreZero]

end UnusedFields

theorem zField_eq_zero_of_unusedAreZero (h : unusedAreZero f w = true) : zField w = 0 :=
  eq_of_beq (Bool.and_eq_true_iff.1 h).1

theorem opField_toNat_eq_opcode_iff : (opField w).toNat = opcode i ↔ opField w = BitVec.ofNat 8 (opcode i) := by
  have hlt : opcode i < 2 ^ 8 := by cases i <;> simp [opcode]
  rw [← BitVec.toNat_inj, BitVec.toNat_ofNat, Nat.mod_eq_of_lt hlt]

/-- A word that selects the row of a command and has its unused fields zero is the encoding of what it reads as. -/
theorem encode_withOperandsOf (hop : (opField w).toNat = opcode i) (hzero : unusedAreZero i.format w = true) :
    encode (i.withOperandsOf w) = w := by
  have hw := packFields_fields w (zField_eq_zero_of_unusedAreZero hzero)
  rw [opField_toNat_eq_opcode_iff.1 hop] at hw
  cases i with
  | fxld =>
    obtain ⟨-, hra, hrb⟩ := (unusedAreZero_LI w).1 hzero
    rwa [hra, hrb] at hw
  | fxmov | fxlog2 | fxln | fxexps =>
    obtain ⟨-, hrb, himm⟩ := (unusedAreZero_R2 w).1 hzero
    rwa [hrb, himm] at hw
  | fxseti | fxsetd =>
    obtain ⟨-, hra, hrb, himm⟩ := (unusedAreZero_RD w).1 hzero
    rwa [hra, hrb, himm] at hw
  | fxrdm | fxrdp | fxgeti | fxgetd =>
    obtain ⟨-, hrd, hrb, himm⟩ := (unusedAreZero_RS w).1 hzero
    rwa [hrd, hrb, himm] at hw
  | fxmul | fxdiv =>
    obtain ⟨-, himm⟩ := (unusedAreZero_R3 w).1 hzero
    rwa [himm] at hw

/-- Settles O3: the word is the packing of its fields, and the fields are the command's. -/
theorem decodedWordIsItsEncoding : Obligations.DecodedWordIsItsEncoding := by
  intro w i h
  obtain ⟨hop, hi, hzero, hwf⟩ := decode_eq_command_iff_fields.1 h
  have henc : encode (i.withOperandsOf w) = w := encode_withOperandsOf hop hzero
  rw [hi] at henc
  exact ⟨henc, hwf⟩

/-! Masks and matches, field by field (R65). -/

/-- Two words are equal when their six fields are. -/
theorem eq_iff_fields (v w : CmdWord) : v = w ↔ opField v = opField w ∧ zField v = zField w ∧
    rdField v = rdField w ∧ raField v = raField w ∧ rbField v = rbField w ∧ immField v = immField w := by
  constructor
  · rintro rfl
    exact ⟨rfl, rfl, rfl, rfl, rfl, rfl⟩
  · simp only [← BitVec.toNat_inj, opField_toNat, rdField_toNat, raField_toNat, rbField_toNat, immField_toNat,
      zField_toNat]
    omega

/-- Masking a word masks each field. -/
theorem and_eq_iff_fields (w mask m : CmdWord) : w &&& mask = m ↔
    opField w &&& opField mask = opField m ∧ zField w &&& zField mask = zField m ∧
    rdField w &&& rdField mask = rdField m ∧ raField w &&& raField mask = raField m ∧
    rbField w &&& rbField mask = rbField m ∧ immField w &&& immField mask = immField m := by
  rw [eq_iff_fields]
  simp only [opField, rdField, raField, rbField, immField, zField, BitVec.extractLsb'_and]

/-- The mask of a format's rows: `op`, the unused fields and `z`, and for `LI` the top bit of `imm` (R65). -/
def Format.mask : Format → CmdWord
  | .LI => 0xF80FF0FF
  | .R2 => 0xFFFF00FF
  | .RD => 0xFFFFF0FF
  | .RS => 0xFFFF0FFF
  | .R3 => 0xFFF000FF

/-! The fields of a mask: all ones where a word is compared, zero where an operand stands. -/

section Mask

variable (f : Format)

theorem opField_mask : opField f.mask = .allOnes 8 := by cases f <;> rfl
theorem rdField_mask : rdField f.mask = if f = .RS then .allOnes 4 else 0 := by cases f <;> rfl
theorem raField_mask : raField f.mask = if f = .LI ∨ f = .RD then .allOnes 4 else 0 := by cases f <;> rfl
theorem rbField_mask : rbField f.mask = if f = .R3 then 0 else .allOnes 4 := by cases f <;> rfl
theorem immField_mask : immField f.mask = if f = .LI then 0x80 else .allOnes 8 := by cases f <;> rfl
theorem zField_mask : zField f.mask = .allOnes 4 := by cases f <;> rfl

end Mask

/-- "The masks and matches of rule R65 state steps (1) and (2) exactly" (R66); the mask of `LI` also asks for the top
bit of `imm`, which no legal immediate has. -/
theorem and_mask_eq_iff (w : CmdWord) (f : Format) (op : BitVec 8) : w &&& f.mask = packFields 0 0 0 0 op ↔
    opField w = op ∧ unusedAreZero f w = true ∧ (f = .LI → immField w &&& 0x80 = 0) := by
  rw [and_eq_iff_fields, opField_mask, zField_mask, rdField_mask, raField_mask, rbField_mask, immField_mask]
  cases f with
  | LI => simp [unusedAreZero_LI, -BitVec.reduceAllOnes, and_assoc]
  | R2 => simp [unusedAreZero_R2, -BitVec.reduceAllOnes]
  | RD => simp [unusedAreZero_RD, -BitVec.reduceAllOnes]
  | RS => simp [unusedAreZero_RS, -BitVec.reduceAllOnes]
  | R3 => simp [unusedAreZero_R3, -BitVec.reduceAllOnes]

theorem imm_top_bit_eq_zero_of_le : ∀ imm : BitVec 8, imm.toNat ≤ 64 → imm &&& 0x80 = 0 := by decide

/-! The table of R65: its rows are those of the commands, one per mnemonic. -/

/-- The row of a command: mnemonic, mask, match. -/
def rowOf (i : Instr) : String × CmdWord × CmdWord :=
  (mnemonic i, i.format.mask, packFields 0 0 0 0 (BitVec.ofNat 8 (opcode i)))

/-- One command per row, the operands zero. -/
def rowRepresentatives : List Instr :=
  [.fxld 0 0, .fxmov 0 0, .fxrdm 0, .fxrdp 0, .fxseti 0, .fxsetd 0, .fxgeti 0, .fxgetd 0, .fxmul 0 0 0, .fxdiv 0 0 0,
   .fxlog2 0 0, .fxln 0 0, .fxexps 0 0]

theorem rows_eq_map_rowOf : rows = rowRepresentatives.map rowOf := by decide

theorem exists_rowOf_of_mem_rows {row : String × CmdWord × CmdWord} (h : row ∈ rows) : ∃ j, rowOf j = row := by
  rw [rows_eq_map_rowOf] at h
  obtain ⟨j, -, hj⟩ := List.mem_map.1 h
  exact ⟨j, hj⟩

/-- The operands of a command have no part in its row. -/
@[simp] theorem rowOf_withOperandsOf (w : CmdWord) (i : Instr) : rowOf (i.withOperandsOf w) = rowOf i := by
  simp [rowOf]

theorem withOperandsOf_zero_mem_rowRepresentatives (i : Instr) : i.withOperandsOf 0 ∈ rowRepresentatives := by
  cases i <;> simp [Instr.withOperandsOf, rowRepresentatives, regOf, rdField, raField, rbField, immField]

theorem rowOf_mem_rows (i : Instr) : rowOf i ∈ rows := by
  rw [rows_eq_map_rowOf, ← rowOf_withOperandsOf 0 i]
  exact List.mem_map_of_mem (withOperandsOf_zero_mem_rowRepresentatives i)

/-- No two rows have one mnemonic. -/
theorem rowOf_eq_of_mnemonic_eq {i j : Instr} (h : mnemonic i = mnemonic j) : rowOf i = rowOf j :=
  List.inj_on_of_nodup_map (f := Prod.fst) (show (rows.map Prod.fst).Nodup by decide) (rowOf_mem_rows i)
    (rowOf_mem_rows j) h

theorem mnemonic_eq_FXLD_iff (i : Instr) : mnemonic i = "FXLD" ↔ i.format = .LI := by
  cases i <;> simp [mnemonic, Instr.format]

/-- The row of a command, in the decoder's terms (R66). -/
theorem and_rowOf_mask_eq_iff (w : CmdWord) (j : Instr) : w &&& (rowOf j).2.1 = (rowOf j).2.2 ↔
    opField w = BitVec.ofNat 8 (opcode j) ∧ unusedAreZero j.format w = true ∧
      (j.format = .LI → immField w &&& 0x80 = 0) :=
  and_mask_eq_iff w j.format _

/-- A word decodes to a command of the row of `j` exactly when it meets that row's mask, match and bound (R65). -/
theorem decode_eq_withOperandsOf_iff (w : CmdWord) (j : Instr) : decode w = .command (j.withOperandsOf w) ↔
    w &&& (rowOf j).2.1 = (rowOf j).2.2 ∧ ((rowOf j).1 = "FXLD" → (immField w).toNat ≤ 64) := by
  have htop := imm_top_bit_eq_zero_of_le (immField w)
  rw [decode_eq_command_iff_fields, opcode_withOperandsOf, format_withOperandsOf, withOperandsOf_wellFormed_iff,
    and_rowOf_mask_eq_iff, opField_toNat_eq_opcode_iff, show (rowOf j).1 = mnemonic j from rfl, mnemonic_eq_FXLD_iff]
  constructor
  · rintro ⟨hop, -, hzero, himm⟩
    exact ⟨⟨hop, hzero, fun hLI => htop (himm hLI)⟩, himm⟩
  · rintro ⟨⟨hop, hzero, -⟩, himm⟩
    exact ⟨hop, withOperandsOf_idem w j, hzero, himm⟩

/-- Settles O4: a row is that of a command, and a command of that row is the one the word's own operands make. -/
theorem decoderAgreesWithMaskAndMatch : Obligations.DecoderAgreesWithMaskAndMatch := by
  refine ⟨fun row hrow w => ?_, fun i => List.mem_map_of_mem (rowOf_mem_rows i)⟩
  obtain ⟨j, rfl⟩ := exists_rowOf_of_mem_rows hrow
  rw [← immField_toNat, ← decode_eq_withOperandsOf_iff]
  constructor
  · rintro ⟨i, hd, hm⟩
    obtain ⟨-, hi, -, -⟩ := decode_eq_command_iff_fields.1 hd
    rw [decode_eq_withOperandsOf_iff, ← rowOf_eq_of_mnemonic_eq hm, ← decode_eq_withOperandsOf_iff, hi]
    exact hd
  · intro hd
    exact ⟨_, hd, mnemonic_withOperandsOf w j⟩

/-! Illegal words (R67, R68, R70): what a command's word holds, refuted. -/

theorem exists_illegal_of_forall_ne_command (h : ∀ i, decode w ≠ .command i) : ∃ why, decode w = .illegal why := by
  cases hd : decode w with
  | command i => exact absurd hd (h i)
  | illegal why => exact ⟨why, rfl⟩

/-- The `op` values of a format's rows (R65). -/
def Format.ops : Format → List Nat
  | .LI => [0x01]
  | .R2 => [0x02, 0x18, 0x19, 0x20]
  | .RD => [0x08, 0x09]
  | .RS => [0x03, 0x04, 0x0A, 0x0B]
  | .R3 => [0x10, 0x11]

/-- The format an `op` value selects. -/
def formatOfOp : Nat → Option Format
  | 0x01 => some .LI
  | 0x02 | 0x18 | 0x19 | 0x20 => some .R2
  | 0x08 | 0x09 => some .RD
  | 0x03 | 0x04 | 0x0A | 0x0B => some .RS
  | 0x10 | 0x11 => some .R3
  | _ => none

theorem formatOfOp_of_mem_ops (f : Format) : ∀ op ∈ f.ops, formatOfOp op = some f := by cases f <;> decide

theorem formatOfOp_opcode (i : Instr) : formatOfOp (opcode i) = some i.format := by cases i <;> rfl

theorem format_eq_of_opcode_mem_ops (h : opcode i ∈ f.ops) : i.format = f :=
  Option.some.inj ((formatOfOp_opcode i).symm.trans (formatOfOp_of_mem_ops f _ h))

theorem opRow_eq_none_of_op_notMem (hop : w.toNat % 2 ^ 8 ∉
    [0x01, 0x02, 0x03, 0x04, 0x08, 0x09, 0x0A, 0x0B, 0x10, 0x11, 0x18, 0x19, 0x20]) : opRow w = none := by
  cases hrow : opRow w with
  | none => rfl
  | some row =>
    obtain ⟨h, -, -⟩ := opRow_eq_some_iff.1 hrow
    rw [← opField_toNat, h] at hop
    exact absurd (by cases row.2 <;> simp [opcode]) hop

/-! A zero field as a zero digit of the word (R61). -/

section ZeroFields

variable (w : CmdWord)

theorem rdField_eq_zero_iff : rdField w = 0 ↔ w.toNat / 2 ^ 8 % 2 ^ 4 = 0 := by
  rw [← BitVec.toNat_inj, rdField_toNat]; rfl
theorem raField_eq_zero_iff : raField w = 0 ↔ w.toNat / 2 ^ 12 % 2 ^ 4 = 0 := by
  rw [← BitVec.toNat_inj, raField_toNat]; rfl
theorem rbField_eq_zero_iff : rbField w = 0 ↔ w.toNat / 2 ^ 16 % 2 ^ 4 = 0 := by
  rw [← BitVec.toNat_inj, rbField_toNat]; rfl
theorem immField_eq_zero_iff : immField w = 0 ↔ w.toNat / 2 ^ 20 % 2 ^ 8 = 0 := by
  rw [← BitVec.toNat_inj, immField_toNat]; rfl
theorem zField_eq_zero_iff : zField w = 0 ↔ w.toNat / 2 ^ 28 = 0 := by
  rw [← BitVec.toNat_inj, zField_toNat]; rfl

end ZeroFields

/-- A word whose `op` selects format `f` is illegal if an unused field of `f` is not zero (R68). -/
theorem illegal_of_unused_ne_zero (hop : w.toNat % 2 ^ 8 ∈ f.ops) (hzero : unusedAreZero f w ≠ true) :
    ∃ why, decode w = .illegal why := by
  refine exists_illegal_of_forall_ne_command fun i hd => ?_
  obtain ⟨hopcode, -, hunused, -⟩ := decode_eq_command_iff_fields.1 hd
  rw [← opField_toNat, hopcode] at hop
  rw [format_eq_of_opcode_mem_ops hop] at hunused
  exact hzero hunused

theorem illegal_of_z_ne_zero (hz : w.toNat / 2 ^ 28 ≠ 0) : ∃ why, decode w = .illegal why := by
  refine exists_illegal_of_forall_ne_command fun i hd => ?_
  obtain ⟨-, -, hunused, -⟩ := decode_eq_command_iff_fields.1 hd
  exact hz ((zField_eq_zero_iff w).1 (zField_eq_zero_of_unusedAreZero hunused))

theorem illegal_of_imm_above_64 (hop : w.toNat % 2 ^ 8 ∈ Format.LI.ops) (himm : 65 ≤ w.toNat / 2 ^ 20 % 2 ^ 8) :
    ∃ why, decode w = .illegal why := by
  refine exists_illegal_of_forall_ne_command fun i hd => ?_
  obtain ⟨hopcode, hi, -, hwf⟩ := decode_eq_command_iff_fields.1 hd
  rw [← opField_toNat, hopcode] at hop
  rw [← hi, withOperandsOf_wellFormed_iff, immField_toNat] at hwf
  have hle := hwf (format_eq_of_opcode_mem_ops hop)
  omega

/-- Settles O5, clause by clause: the `op` value, `z`, the unused fields format by format, the immediate. -/
theorem reservedWordsAreIllegal : Obligations.ReservedWordsAreIllegal := by
  intro w
  refine ⟨fun hop => decode_of_opRow_none (opRow_eq_none_of_op_notMem hop), illegal_of_z_ne_zero,
    fun hop h => illegal_of_unused_ne_zero (f := .LI) (List.mem_singleton.2 hop) fun hzero => ?_,
    fun hop h => illegal_of_unused_ne_zero (f := .R2) hop fun hzero => ?_,
    fun hop h => illegal_of_unused_ne_zero (f := .RD) hop fun hzero => ?_,
    fun hop h => illegal_of_unused_ne_zero (f := .RS) hop fun hzero => ?_,
    fun hop h => illegal_of_unused_ne_zero (f := .R3) hop fun hzero => ?_,
    fun hop h => illegal_of_imm_above_64 (List.mem_singleton.2 hop) h⟩
  · rw [unusedAreZero_LI, raField_eq_zero_iff, rbField_eq_zero_iff] at hzero
    omega
  · rw [unusedAreZero_R2, rbField_eq_zero_iff, immField_eq_zero_iff] at hzero
    omega
  · rw [unusedAreZero_RD, raField_eq_zero_iff, rbField_eq_zero_iff, immField_eq_zero_iff] at hzero
    omega
  · rw [unusedAreZero_RS, rdField_eq_zero_iff, rbField_eq_zero_iff, immField_eq_zero_iff] at hzero
    omega
  · rw [unusedAreZero_R3, immField_eq_zero_iff] at hzero
    omega

/-- Settles O1: each worked word of R74, evaluated. -/
theorem workedEncodingsDecodeAsListed : Obligations.WorkedEncodingsDecodeAsListed := by
  unfold Obligations.WorkedEncodingsDecodeAsListed
  decide

end Sys2Proof

namespace Sys2Proof.Machine

open Sys2Proof.Claims

/-- A fault taken by a word that asks for no draw is what R206 says. -/
theorem faulted_raise (s : State) (f : UnitFault) : Faulted f.cause.code.toNat 0 s (s.raise f) :=
  faulted_afterDraw_raise (.fxrdm 0) s f

/-- Settles O7: the word stands on the `cmd` port, decodes to no command, and the unit takes IllegalCommand. -/
theorem illegalWordHaltsTheUnit : Obligations.IllegalWordHaltsTheUnit := by
  intro s c w n rest why hrun hp hd
  have hacc : (s.accept rest c w n).halt = false := hrun
  exact ⟨_, (step_of_decode_illegal hp hd).trans (execIllegal_running hacc), faulted_raise _ .illegalCommand⟩

end Sys2Proof.Machine
end

section
/-! PROOFS. Moving whole values and the accessors: what each command stores or responds with, its frame and its one
encoding (spec/40_transfer_and_accessors.md). -/

namespace Sys2Proof

open Sys2Proof.Claims Sys2Proof.Laws.EncodedFields

variable {i : Instr} {w : CmdWord}

/-! The one word of a command (R61, R65, R66). -/

theorem packFields_eq_word (imm : BitVec 8) (rb ra rd : BitVec 4) (op : BitVec 8) :
    packFields imm rb ra rd op = word op.toNat rd.toNat ra.toNat rb.toNat imm.toNat := by
  apply BitVec.eq_of_toNat_eq
  rw [packFields_toNat, word, BitVec.toNat_ofNat]
  omega

theorem encodedAs_of_encode_eq (hwf : i.WellFormed) (h : encode i = w) : EncodedAs i w := by
  intro v
  constructor
  · intro hd
    obtain ⟨henc, -⟩ := decodedWordIsItsEncoding v i hd
    exact henc.symm.trans h
  · rintro rfl
    rw [← h]
    exact decodeOfEncodeIsTheCommand i hwf

/-- A command that is not well formed has no word, and the word its fields make is illegal (R70). -/
theorem decode_ne_command_of_not_wellFormed (hwf : ¬ i.WellFormed) : decode w ≠ .command i := fun hd =>
  hwf (decodedWordIsItsEncoding w i hd).2

theorem decode_encode_of_not_wellFormed (hwf : ¬ i.WellFormed) : decode (encode i) = .illegal .precisionAbove64 := by
  obtain ⟨-, f, hrow, hzero⟩ := encodedFields i
  simp [decode, hrow, hzero, hwf]

end Sys2Proof

namespace Sys2Proof.Machine

open Sys2Proof.Claims

/-! What a write and a response leave of the state (R25, R42, R50). -/

section Frames

variable (s : State)

@[simp] theorem State.complete_mag_self (rd : Reg) (v : FixedPoint) : (s.complete rd v).mag rd = v.mag := by
  simp [State.mag]

@[simp] theorem State.complete_prec_self (rd : Reg) (v : FixedPoint) : (s.complete rd v).prec rd = v.fb.toNat := by
  simp [State.prec]

theorem onlyWrites_complete (rd : Reg) (v : FixedPoint) : OnlyWrites rd 0 s (s.complete rd v) :=
  ⟨fun r hr => s.complete_reg_ne rd r v hr, ⟨rfl, rfl, rfl⟩, ⟨rfl, rfl, rfl, rfl, rfl⟩, rfl, rfl⟩

theorem onlyResponds_respond (v : Word) : OnlyResponds v s (s.respond v) :=
  ⟨rfl, fun _ => rfl, ⟨rfl, rfl, rfl⟩, ⟨rfl, rfl, rfl, rfl, rfl⟩, rfl⟩

/-- Writing a register its own contents changes none. -/
theorem sameRegisters_complete_reg (r : Reg) : SameRegisters s (s.complete r (s.reg r)) := by
  intro q
  rw [State.complete_reg]
  split_ifs with hq
  · rw [hq]
  · rfl

end Frames

/-! The two halves of a magnitude, bit by bit, and the halves of what a setter stores (R22, R104 to R107, R109). None
of it needs `p ≤ 64`: above, the integral half is empty. -/

section Halves

variable (m v : Word) (p j : Nat)

theorem integralPart_getLsbD : (integralPart m p).getLsbD j = m.getLsbD (p + j) := by
  rw [← BitVec.testBit_toNat, integralPart_toNat, Nat.testBit_div_two_pow, BitVec.testBit_toNat, Nat.add_comm]

theorem fractionalPart_getLsbD : (fractionalPart m p).getLsbD j = (decide (j < p) && m.getLsbD j) := by
  rw [← BitVec.testBit_toNat, fractionalPart_toNat, Nat.testBit_mod_two_pow, BitVec.testBit_toNat]

theorem halves_toNat : m.toNat = (integralPart m p).toNat * 2 ^ p + (fractionalPart m p).toNat := by
  rw [integralPart_toNat, fractionalPart_toNat, Nat.div_add_mod']

theorem integralPart_withIntegral : integralPart (withIntegral m p v) p = fractionalPart v (64 - p) := by
  apply BitVec.eq_of_getLsbD_eq
  intro j _
  rw [integralPart_getLsbD, fractionalPart_getLsbD]
  by_cases hj : p + j < 64
  · rw [withIntegral_getLsbD _ _ _ _ hj, if_neg (by omega), Nat.add_sub_cancel_left, decide_eq_true (by omega),
      Bool.true_and]
  · rw [BitVec.getLsbD_of_ge _ _ (by omega), decide_eq_false (by omega), Bool.false_and]

theorem fractionalPart_withIntegral : fractionalPart (withIntegral m p v) p = fractionalPart m p := by
  apply BitVec.eq_of_getLsbD_eq
  intro j hj
  rw [fractionalPart_getLsbD, fractionalPart_getLsbD, withIntegral_getLsbD _ _ _ _ hj]
  by_cases hp : j < p <;> simp [hp]

theorem integralPart_withFractional : integralPart (withFractional m p v) p = integralPart m p := by
  apply BitVec.eq_of_getLsbD_eq
  intro j _
  rw [integralPart_getLsbD, integralPart_getLsbD]
  by_cases hj : p + j < 64
  · rw [withFractional_getLsbD _ _ _ _ hj, if_neg (by omega)]
  · rw [BitVec.getLsbD_of_ge _ _ (by omega), BitVec.getLsbD_of_ge _ _ (by omega)]

theorem fractionalPart_withFractional : fractionalPart (withFractional m p v) p = fractionalPart v p := by
  apply BitVec.eq_of_getLsbD_eq
  intro j hj
  rw [fractionalPart_getLsbD, fractionalPart_getLsbD, withFractional_getLsbD _ _ _ _ hj]
  by_cases hp : j < p <;> simp [hp]

/-! At precision 0 the magnitude is all integral, at precision 64 all fractional (R110). -/

@[simp] theorem integralPart_at_0 : integralPart m 0 = m := BitVec.eq_of_toNat_eq (by simp [integralPart_toNat])

@[simp] theorem integralPart_at_64 : integralPart m 64 = 0 :=
  BitVec.eq_of_toNat_eq ((integralPart_toNat m 64).trans (Nat.div_eq_of_lt m.isLt))

@[simp] theorem fractionalPart_at_0 : fractionalPart m 0 = 0 :=
  BitVec.eq_of_toNat_eq ((fractionalPart_toNat m 0).trans (Nat.mod_one _))

@[simp] theorem fractionalPart_at_64 : fractionalPart m 64 = m :=
  BitVec.eq_of_toNat_eq ((fractionalPart_toNat m 64).trans (Nat.mod_eq_of_lt m.isLt))

@[simp] theorem withIntegral_at_0 : withIntegral m 0 v = v :=
  BitVec.eq_of_getLsbD_eq fun j hj => withIntegral_getLsbD m v 0 j hj

@[simp] theorem withIntegral_at_64 : withIntegral m 64 v = m :=
  BitVec.eq_of_getLsbD_eq fun j hj => (withIntegral_getLsbD m v 64 j hj).trans (if_pos hj)

@[simp] theorem withFractional_at_0 : withFractional m 0 v = m :=
  BitVec.eq_of_getLsbD_eq fun j hj => withFractional_getLsbD m v 0 j hj

@[simp] theorem withFractional_at_64 : withFractional m 64 v = v :=
  BitVec.eq_of_getLsbD_eq fun j hj => (withFractional_getLsbD m v 64 j hj).trans (if_pos hj)

end Halves

/-! A getter on the register just written. -/

section GetAfterWrite

variable {s : State} (hrun : s.halt = false) (r : Reg) (x : FixedPoint)
include hrun

theorem exec_fxgeti_complete : exec (.fxgeti r) (s.complete r x) =
    .next ((s.complete r x).respond (integralPart x.mag x.fb.toNat)) := by
  rw [exec_fxgeti_running (s := s.complete r x) hrun, State.complete_mag_self, State.complete_prec_self]

theorem exec_fxgetd_complete : exec (.fxgetd r) (s.complete r x) =
    .next ((s.complete r x).respond (fractionalPart x.mag x.fb.toNat)) := by
  rw [exec_fxgetd_running (s := s.complete r x) hrun, State.complete_mag_self, State.complete_prec_self]

end GetAfterWrite

/-! The obligations. -/

/-- Settles O25: each setter replaces its own half of the magnitude and keeps the other. -/
theorem setThenGetRoundTrips : Obligations.SetThenGetRoundTrips := by
  intro r s hrun _
  refine ⟨_, _, ⟨_, exec_fxgeti_running hrun r, rfl⟩, ⟨_, exec_fxgetd_running hrun r, rfl⟩, halves_toNat _ _,
    ⟨_, exec_fxseti_running hrun r, ⟨_, _, exec_fxgeti_complete hrun r _, rfl, ?_⟩,
      ⟨_, exec_fxgetd_complete hrun r _, ?_⟩⟩,
    ⟨_, exec_fxsetd_running hrun r, ⟨_, _, exec_fxgetd_complete hrun r _, rfl, ?_⟩,
      ⟨_, exec_fxgeti_complete hrun r _, ?_⟩⟩⟩
  · exact (congrArg BitVec.toNat (integralPart_withIntegral _ _ _)).trans (fractionalPart_toNat _ _)
  · exact congrArg some (fractionalPart_withIntegral _ _ _)
  · exact (congrArg BitVec.toNat (fractionalPart_withFractional _ _ _)).trans (fractionalPart_toNat _ _)
  · exact congrArg some (integralPart_withFractional _ _ _)

/-- Settles O17: the immediate decides whether the command is well formed, and so which branch it takes. -/
theorem fxldLoadsWordAndPrecision : Obligations.FxldLoadsWordAndPrecision := by
  intro rd imm
  have hword : encode (.fxld rd imm) = word 0x01 rd 0 0 imm.toNat := packFields_eq_word imm 0 0 (fieldOf rd) 0x01
  refine ⟨fun himm => ?_, fun himm => ?_⟩
  · refine ⟨encodedAs_of_encode_eq ((wellFormed_fxld rd imm).2 himm) hword, fun s hrun => ?_⟩
    rw [exec_fxld_running hrun, if_pos himm]
    exact ⟨_, rfl, s.complete_mag_self rd _, (s.complete_prec_self rd _).trans (immPrecision_toNat_of_le himm),
      onlyWrites_complete s rd _⟩
  · have hwf : ¬ (Instr.fxld rd imm).WellFormed := fun h => Nat.not_le.2 himm ((wellFormed_fxld rd imm).1 h)
    refine ⟨fun _ => decode_ne_command_of_not_wellFormed hwf, ?_, fun s hrun => ?_⟩
    · rw [← hword]
      exact decode_encode_of_not_wellFormed hwf
    · rw [exec_fxld_running hrun, if_neg (Nat.not_le.2 himm)]
      exact ⟨_, rfl, faulted_raise s .illegalCommand⟩

/-- Settles O18: the write is of the whole register, so `rd = ra` writes back what is there. -/
theorem fxmovCopiesTheValue : Obligations.FxmovCopiesTheValue := by
  intro rd ra
  refine ⟨encodedAs_of_encode_eq rfl (packFields_eq_word 0 0 (fieldOf ra) (fieldOf rd) 0x02), fun s hrun =>
    ⟨_, exec_fxmov_running hrun rd ra, s.complete_reg_self rd _, onlyWrites_complete s rd _, ?_⟩⟩
  rintro rfl
  exact sameRegisters_complete_reg s rd

/-- Settles O19, from the response. -/
theorem fxrdmRespondsWithTheMagnitude : Obligations.FxrdmRespondsWithTheMagnitude := fun ra =>
  ⟨encodedAs_of_encode_eq rfl (packFields_eq_word 0 0 (fieldOf ra) 0 0x03), fun s hrun =>
    ⟨_, exec_fxrdm_running hrun ra, onlyResponds_respond s _⟩⟩

/-- Settles O20: a 7-bit precision zero-extended to a word keeps its value. -/
theorem fxrdpRespondsWithThePrecision : Obligations.FxrdpRespondsWithThePrecision := fun ra =>
  ⟨encodedAs_of_encode_eq rfl (packFields_eq_word 0 0 (fieldOf ra) 0 0x04), fun s hrun =>
    ⟨_, _, exec_fxrdp_running hrun ra, onlyResponds_respond s _, BitVec.toNat_setWidth_of_le (by decide)⟩⟩

/-- Settles O21, from the bits of the stored magnitude. -/
theorem fxsetiReplacesTheIntegralBits : Obligations.FxsetiReplacesTheIntegralBits := by
  intro rd
  refine ⟨encodedAs_of_encode_eq rfl (packFields_eq_word 0 0 0 (fieldOf rd) 0x08), fun s hrun =>
    ⟨_, exec_fxseti_running hrun rd, s.complete_fb_self rd _, onlyWrites_complete s rd _, fun j hj => ?_⟩⟩
  rw [State.complete_mag_self]
  exact withIntegral_getLsbD _ _ _ j hj

/-- Settles O22, from the bits of the stored magnitude. -/
theorem fxsetdReplacesTheFractionalBits : Obligations.FxsetdReplacesTheFractionalBits := by
  intro rd
  refine ⟨encodedAs_of_encode_eq rfl (packFields_eq_word 0 0 0 (fieldOf rd) 0x09), fun s hrun =>
    ⟨_, exec_fxsetd_running hrun rd, s.complete_fb_self rd _, onlyWrites_complete s rd _, fun j hj => ?_⟩⟩
  rw [State.complete_mag_self]
  exact withFractional_getLsbD _ _ _ j hj

/-- Settles O23, from the value of the integral half. -/
theorem fxgetiRespondsWithTheIntegralPart : Obligations.FxgetiRespondsWithTheIntegralPart := fun ra =>
  ⟨encodedAs_of_encode_eq rfl (packFields_eq_word 0 0 (fieldOf ra) 0 0x0A), fun s hrun =>
    ⟨_, _, exec_fxgeti_running hrun ra, onlyResponds_respond s _, integralPart_toNat _ _⟩⟩

/-- Settles O24, from the value of the fractional half. -/
theorem fxgetdRespondsWithTheFractionalField : Obligations.FxgetdRespondsWithTheFractionalField := fun ra =>
  ⟨encodedAs_of_encode_eq rfl (packFields_eq_word 0 0 (fieldOf ra) 0 0x0B), fun s hrun =>
    ⟨_, _, exec_fxgetd_running hrun ra, onlyResponds_respond s _, fractionalPart_toNat _ _⟩⟩

/-- Settles O26: one half of the magnitude is empty, the other is the whole word. -/
theorem accessorsAtBoundaryPrecisions : Obligations.AccessorsAtBoundaryPrecisions := by
  intro r s hrun
  rw [exec_fxseti_running hrun, exec_fxsetd_running hrun, exec_fxgeti_running hrun, exec_fxgetd_running hrun]
  refine ⟨fun hp => ?_, fun hp => ?_⟩
  · rw [hp]
    exact ⟨⟨_, rfl, (s.complete_mag_self r _).trans (withIntegral_at_0 _ _)⟩,
      ⟨_, rfl, (s.complete_mag_self r _).trans (withFractional_at_0 _ _)⟩,
      ⟨_, rfl, congrArg some (integralPart_at_0 _)⟩, ⟨_, rfl, congrArg some (fractionalPart_at_0 _)⟩⟩
  · rw [hp]
    exact ⟨⟨_, rfl, (s.complete_mag_self r _).trans (withIntegral_at_64 _ _)⟩,
      ⟨_, rfl, (s.complete_mag_self r _).trans (withFractional_at_64 _ _)⟩,
      ⟨_, rfl, congrArg some (integralPart_at_64 _)⟩, ⟨_, rfl, congrArg some (fractionalPart_at_64 _)⟩⟩

end Sys2Proof.Machine
end

section
/-! PROOFS. Multiply and divide: the laws of the two blocks, what the two commands store or raise, and how far a divide
undoes a multiply (spec/41_multiply_divide.md). -/

namespace Sys2Proof.Machine

open Sys2Proof.Claims

/-! Words as truncated numbers (R13). -/

@[simp] theorem trunc_zero : trunc 0 = 0 := rfl

@[simp] theorem trunc_word (a : Word) : trunc a.toNat = a := by simp [trunc]

/-- The unit `2^p` of a precision below 64 is a word (R133 (c)). -/
theorem unit_toNat {p : Nat} (hp : p ≤ 63) : (BitVec.ofNat 64 (2 ^ p)).toNat = 2 ^ p :=
  trunc_toNat_of_lt (Nat.pow_lt_pow_right Nat.one_lt_two (Nat.lt_succ_of_le hp))

theorem unit_ne_zero {p : Nat} (hp : p ≤ 63) : BitVec.ofNat 64 (2 ^ p) ≠ 0 := fun h =>
  (Nat.two_pow_pos p).ne' ((unit_toNat hp).symm.trans (congrArg BitVec.toNat h))

/-! The laws of `fx_mul` (R133). -/

section MultiplyBlock

variable (a b : Word) (p : Nat)

theorem fxMul_eq_trunc : fxMul a b p = trunc (a.toNat * b.toNat / 2 ^ p) := by
  rw [fxMul, Nat.shiftRight_eq_div_pow]

theorem fxMul_comm : fxMul a b p = fxMul b a p := by rw [fxMul, fxMul, Nat.mul_comm]

theorem fxMul_zero_left : fxMul 0 b p = 0 := by simp [fxMul_eq_trunc]

theorem fxMul_zero_right : fxMul a 0 p = 0 := (fxMul_comm a 0 p).trans (fxMul_zero_left a p)

theorem fxMul_at_0 : fxMul a b 0 = a * b :=
  BitVec.eq_of_toNat_eq (by rw [fxMul_toNat, pow_zero, Nat.div_one, BitVec.toNat_mul])

variable {a b p}

theorem fxMul_unit (hp : p ≤ 63) : fxMul a (BitVec.ofNat 64 (2 ^ p)) p = a := by
  rw [fxMul_eq_trunc, unit_toNat hp, Nat.mul_div_cancel _ (Nat.two_pow_pos p), trunc_word]

theorem fxMul_eq_zero_of_lt (h : a.toNat * b.toNat < 2 ^ p) : fxMul a b p = 0 := by
  rw [fxMul_eq_trunc, Nat.div_eq_of_lt h, trunc_zero]

theorem product_overflows_iff :
    2 ^ 64 ≤ a.toNat * b.toNat / 2 ^ p ↔ 2 ^ (64 + p) ≤ a.toNat * b.toNat := by
  rw [Nat.le_div_iff_mul_le (Nat.two_pow_pos p), pow_add]

/-- Without overflow the truncation changes nothing. -/
theorem fxMul_toNat_of_lt (h : a.toNat * b.toNat / 2 ^ p < 2 ^ 64) :
    (fxMul a b p).toNat = a.toNat * b.toNat / 2 ^ p := by
  rw [fxMul_toNat, Nat.mod_eq_of_lt h]

/-- At `p = 64` the high word of the product is a word: nothing overflows (R133 (e), (f)). -/
theorem product_at_64_lt : a.toNat * b.toNat / 2 ^ 64 < 2 ^ 64 :=
  Nat.div_lt_of_lt_mul (Nat.mul_lt_mul'' a.isLt b.isLt)

end MultiplyBlock

/-! The laws of `fx_div` (R137). -/

section DivideBlock

variable {a b : Word} {p : Nat}

theorem fxDiv_unit (hp : p ≤ 63) : fxDiv a (BitVec.ofNat 64 (2 ^ p)) p = .value a := by
  rw [fxDiv_of_ne_zero _ _ _ (unit_ne_zero hp), unit_toNat hp, Nat.mul_div_cancel _ (Nat.two_pow_pos p), trunc_word]

/-- The unit of the precision, which at `p = 64` truncates to 0. -/
theorem fxDiv_self (ha : a ≠ 0) : fxDiv a a p = .value (trunc (2 ^ p)) := by
  rw [fxDiv_of_ne_zero _ _ _ ha, Nat.mul_div_cancel_left _ (BitVec.toNat_pos_of_ne_zero ha)]

theorem fxDiv_eq_zero_of_lt (h : a.toNat * 2 ^ p < b.toNat) (hb : b ≠ 0) : fxDiv a b p = .value 0 := by
  rw [fxDiv_of_ne_zero _ _ _ hb, Nat.div_eq_of_lt h, trunc_zero]

theorem fxDiv_zero_dividend (hb : b ≠ 0) : fxDiv 0 b p = .value 0 :=
  fxDiv_eq_zero_of_lt (by simpa using BitVec.toNat_pos_of_ne_zero hb) hb

/-- At `p = 0` the quotient is at most the dividend: it cannot overflow (R137 (g)). -/
theorem quotient_at_0_toNat : (trunc (a.toNat * 2 ^ 0 / b.toNat)).toNat = a.toNat / b.toNat := by
  rw [pow_zero, Nat.mul_one, trunc_toNat_of_lt ((Nat.div_le_self _ _).trans_lt a.isLt)]

theorem quotient_at_64_overflows_iff (hb : b ≠ 0) :
    2 ^ 64 ≤ a.toNat * 2 ^ 64 / b.toNat ↔ b.toNat ≤ a.toNat := by
  rw [Nat.le_div_iff_mul_le (BitVec.toNat_pos_of_ne_zero hb), Nat.mul_comm, Nat.mul_le_mul_right_iff (Nat.two_pow_pos 64)]

end DivideBlock

/-! A product with its remainder modulo `d` discarded, divided by its second factor again (R139). -/

section DivideUndoesMultiply

variable (a d : Nat) {b : Nat}

theorem rounded_product_div_le : a * b / d * d / b ≤ a :=
  Nat.div_le_of_le_mul ((Nat.div_mul_le_self _ d).trans_eq (Nat.mul_comm a b))

theorem rounded_product_div_eq_iff (hb : 0 < b) : a * b / d * d / b = a ↔ a * b % d = 0 := by
  have hsplit : a * b / d * d + a * b % d = a * b := Nat.div_add_mod' _ d
  constructor
  · intro h
    have hle : a * b ≤ a * b / d * d := (Nat.le_div_iff_mul_le hb).1 h.ge
    omega
  · intro h
    rw [h, Nat.add_zero] at hsplit
    rw [hsplit, Nat.mul_div_cancel _ hb]

end DivideUndoesMultiply

/-! The two commands, by whether the precisions agree (R132, R136). -/

section BinaryCommands

variable {s : State} {ra rb : Reg}

theorem fb_eq_of_prec_eq (hp : s.prec ra = s.prec rb) : s.fb ra = s.fb rb := BitVec.eq_of_toNat_eq hp

theorem fb_ne_of_prec_ne (hp : s.prec ra ≠ s.prec rb) : s.fb ra ≠ s.fb rb := fun h => hp (congrArg BitVec.toNat h)

variable (hrun : s.halt = false) (rd : Reg)
include hrun

theorem exec_fxmul_of_prec_eq (hp : s.prec ra = s.prec rb) : exec (.fxmul rd ra rb) s =
    .next (s.complete rd ⟨fxMul (s.mag ra) (s.mag rb) (s.prec ra), s.fb ra⟩) := by
  rw [exec_fxmul_running hrun, if_neg (not_not_intro (fb_eq_of_prec_eq hp))]

theorem exec_fxmul_of_prec_ne (hp : s.prec ra ≠ s.prec rb) :
    exec (.fxmul rd ra rb) s = .next (s.raise .precisionMismatch) := by
  rw [exec_fxmul_running hrun, if_pos (fb_ne_of_prec_ne hp)]

theorem exec_fxdiv_of_prec_eq (hp : s.prec ra = s.prec rb) : exec (.fxdiv rd ra rb) s =
    .next (s.finish rd (s.fb ra) (fxDiv (s.mag ra) (s.mag rb) (s.prec ra))) := by
  rw [exec_fxdiv_running hrun, if_neg (not_not_intro (fb_eq_of_prec_eq hp))]

theorem exec_fxdiv_of_prec_ne (hp : s.prec ra ≠ s.prec rb) :
    exec (.fxdiv rd ra rb) s = .next (s.raise .precisionMismatch) := by
  rw [exec_fxdiv_running hrun, if_pos (fb_ne_of_prec_ne hp)]

end BinaryCommands

/-! The obligations. -/

/-- Settles O27: the precisions decide between the write of the product and the fault. -/
theorem fxmulStoresTheTruncatedProduct : Obligations.FxmulStoresTheTruncatedProduct := by
  intro rd ra rb
  refine ⟨encodedAs_of_encode_eq rfl (packFields_eq_word 0 (fieldOf rb) (fieldOf ra) (fieldOf rd) 0x10), fun s hrun =>
    ⟨fun hp => ⟨_, exec_fxmul_of_prec_eq hrun rd hp, onlyWrites_complete s rd _, s.complete_fb_self rd _, ?_⟩,
      fun hp => ⟨_, exec_fxmul_of_prec_ne hrun rd hp, faulted_raise s .precisionMismatch⟩⟩⟩
  rw [State.complete_mag_self, fxMul_toNat]

/-- Settles O28: the precisions decide first, then the divisor. -/
theorem fxdivStoresTheTruncatedQuotient : Obligations.FxdivStoresTheTruncatedQuotient := by
  intro rd ra rb
  refine ⟨encodedAs_of_encode_eq rfl (packFields_eq_word 0 (fieldOf rb) (fieldOf ra) (fieldOf rd) 0x11), fun s hrun =>
    ⟨fun hp hb => ?_, fun hp hb => ?_, fun hp =>
      ⟨_, exec_fxdiv_of_prec_ne hrun rd hp, faulted_raise s .precisionMismatch⟩⟩⟩
  · rw [exec_fxdiv_of_prec_eq hrun rd hp, fxDiv_of_ne_zero _ _ _ hb, State.finish_value]
    refine ⟨_, rfl, onlyWrites_complete s rd _, s.complete_fb_self rd _, ?_⟩
    rw [State.complete_mag_self, trunc_toNat]
  · rw [exec_fxdiv_of_prec_eq hrun rd hp, hb, fxDiv_zero, State.finish_fault]
    exact ⟨_, rfl, faulted_raise s .divideByZero⟩

/-- Settles O29, law by law. At `p = 1`, `(1 * 1) * 4` loses the half that `1 * (1 * 4)` keeps. -/
theorem multiplyLaws : Obligations.MultiplyLaws := by
  refine ⟨fun a b p => ⟨fxMul_zero_left b p, fxMul_zero_right a p, fxMul_comm a b p, fxMul_unit, fxMul_eq_zero_of_lt,
      product_overflows_iff, fxMul_toNat a b p, ?_, ?_⟩,
    ⟨1, 1, 4, 1, by decide, by decide⟩, fun p hp => fxMul_eq_zero_of_lt (Nat.one_lt_two_pow (by omega)), by decide⟩
  · rintro rfl
    exact fxMul_toNat_of_lt product_at_64_lt
  · rintro rfl
    exact fxMul_at_0 a b

/-- Settles O30, law by law. -/
theorem divideLaws : Obligations.DivideLaws := by
  refine ⟨fun a b p => ⟨fxDiv_zero a p, fxDiv_unit, fun ha _ => fxDiv_self ha, fun ha => fxDiv_self ha, fun hb =>
      ⟨fxDiv_zero_dividend hb, fun h => fxDiv_eq_zero_of_lt h hb, ?_, ?_, quotient_at_64_overflows_iff hb⟩⟩, by decide⟩
  · exact ⟨_, fxDiv_of_ne_zero a b p hb, trunc_toNat _⟩
  · exact ⟨_, fxDiv_of_ne_zero a b 0 hb, quotient_at_0_toNat⟩

/-- Settles O31: without overflow the stored product is `a * b` with its low `p` bits discarded, and the quotient, at
most `a`, needs no truncation. -/
theorem divideUndoesMultiplyOnlyWithoutRounding : Obligations.DivideUndoesMultiplyOnlyWithoutRounding := by
  refine ⟨fun a b p _ hb hlt => ?_, by decide⟩
  have hle := rounded_product_div_le a.toNat (2 ^ p) (b := b.toNat)
  have hquot : (trunc ((fxMul a b p).toNat * 2 ^ p / b.toNat)).toNat = a.toNat * b.toNat / 2 ^ p * 2 ^ p / b.toNat := by
    rw [fxMul_toNat_of_lt hlt, trunc_toNat_of_lt (hle.trans_lt a.isLt)]
  refine ⟨_, fxDiv_of_ne_zero _ b p hb, hquot.trans_le hle, ?_⟩
  rw [← BitVec.toNat_inj, hquot, rounded_product_div_eq_iff _ _ (BitVec.toNat_pos_of_ne_zero hb)]

end Sys2Proof.Machine
end

section
/-! PROOFS. The logarithms: the two normalising loops within the turns the spec allows them, the log2 word without its
loops, and what FXLOG2, FXLN and a zero draw through the sampler store (spec/42_logarithm.md, R188). -/

namespace Sys2Proof.Machine

open Sys2Proof.Claims

/-! Words as integers modulo `2^64`: the accumulator's two's complement (R152, R160). -/

theorem trunc_sub_trunc (a b : Nat) : trunc a - trunc b = BitVec.ofInt 64 ((a : Int) - b) := by
  rw [BitVec.sub_eq_add_neg, Int.sub_eq_add_neg, BitVec.ofInt_add, BitVec.ofInt_neg, BitVec.ofInt_natCast,
    BitVec.ofInt_natCast]
  rfl

/-- What the two loops leave in the accumulator: at most one of the two truncated differences is not zero, so together
they are the signed one. -/
theorem accumulated_units (k p u : Nat) :
    0 - trunc ((p - k) * u) + trunc ((k - p) * u) = BitVec.ofInt 64 (((k : Int) - p) * u) := by
  rw [zero_sub, neg_add_eq_sub, trunc_sub_trunc]
  congr 1
  rcases le_total k p with h | h <;> (rw [Nat.sub_eq_zero_of_le h]; push_cast [h]; ring)

theorem negW_ofInt_neg (a : Nat) : negW (BitVec.ofInt 64 (-a)) = trunc a := by
  rw [negW_eq_neg, BitVec.ofInt_neg, BitVec.neg_neg, BitVec.ofInt_natCast]
  rfl

theorem signedW_ofInt_neg {a : Nat} (ha : a < 2 ^ 63) : signedW (BitVec.ofInt 64 (-a)) = -a := by
  rw [signedW_eq_toInt]
  exact BitVec.toInt_ofInt_eq_self (by decide) (by omega) (by omega)

/-! Step 3: the two loops, for every bound on their turns that the spec's own bound is below (R152, R155). -/

section Normalisation

variable {x p : Nat}

/-- One formula for both sides of the window: one of the two exponents is 0. -/
theorem normalised_eq_mul_div : normalised x p = x * 2 ^ (p - Nat.log2 x) / 2 ^ (Nat.log2 x - p) := by
  simp only [normalised]
  split_ifs with hk
  · rw [Nat.sub_eq_zero_of_le hk.le, pow_zero, Nat.div_one]
  · rw [Nat.sub_eq_zero_of_le (Nat.not_lt.1 hk), pow_zero, Nat.mul_one]

theorem doubleIntoWindow_of_unit_le (h : 2 ^ p ≤ x) (n : Nat) (y : Word) :
    doubleIntoWindow (2 ^ p) n x y = (x, y) := by
  cases n with
  | zero => rfl
  | succ n => exact if_neg (Nat.not_lt.2 h)

/-- Loop 3a makes `p - k` turns: none when the input is not below the window. -/
theorem doubleIntoWindow_within_turns (hx : x ≠ 0) {n : Nat} (hn : p ≤ n) (y : Word) :
    doubleIntoWindow (2 ^ p) n x y = (x * 2 ^ (p - Nat.log2 x), y - trunc ((p - Nat.log2 x) * 2 ^ p)) := by
  rcases lt_or_ge (Nat.log2 x) p with hk | hk
  · have hwin := normalised_window p hx
    rw [show normalised x p = x * 2 ^ (p - Nat.log2 x) from if_pos hk] at hwin
    exact doubleIntoWindow_eq p _ n x y (by omega) hwin.1 hwin.2
  · rw [doubleIntoWindow_of_unit_le ((Nat.le_log2 hx).1 hk), Nat.sub_eq_zero_of_le hk]
    simp

/-- Step 3 as a whole: the normalised input, and `k - p` units in the accumulator. -/
theorem normalise_within_turns (hx : x ≠ 0) (hk : Nat.log2 x < 64) {n m : Nat} (hn : p ≤ n) (hm : 63 - p ≤ m) :
    halveIntoWindow (2 ^ p) m (doubleIntoWindow (2 ^ p) n x 0).1 (doubleIntoWindow (2 ^ p) n x 0).2 =
      (normalised x p, BitVec.ofInt 64 (((Nat.log2 x : Int) - p) * 2 ^ p)) := by
  obtain ⟨hlo, hhi⟩ := normalised_window p hx
  have hacc := accumulated_units (Nat.log2 x) p (2 ^ p)
  push_cast at hacc
  rw [normalised_eq_mul_div] at hlo hhi ⊢
  rw [doubleIntoWindow_within_turns hx hn, halveIntoWindow_eq p (Nat.log2 x - p) m _ _ (by omega) hlo hhi]
  exact congrArg (Prod.mk _) hacc

end Normalisation

/-! The log2 word of a valid input: exponent and fraction (R150, R153, R154). -/

/-- The square of 1.0 does not reach 2.0. -/
theorem not_squareReaches_unit (p : Nat) : ¬ squareReaches p (2 ^ p) := by
  rw [squareReaches, Nat.mul_div_cancel _ (Nat.two_pow_pos p), Nat.not_le]
  exact Nat.pow_lt_pow_right Nat.one_lt_two (Nat.lt_succ_self p)

/-- A mantissa of 1.0 stays 1.0 (R154). -/
theorem mantissa_unit (p i : Nat) : mantissa p (2 ^ p) i = 2 ^ p := by
  induction i with
  | zero => rfl
  | succ i ih =>
    rw [mantissa, ih]
    exact (if_neg (not_squareReaches_unit p)).trans (Nat.mul_div_cancel _ (Nat.two_pow_pos p))

theorem normalised_two_pow (k p : Nat) : normalised (2 ^ k) p = 2 ^ p := by
  rw [normalised_eq_mul_div, Nat.log2_two_pow, ← pow_add]
  exact Nat.div_eq_of_eq_mul_left (Nat.two_pow_pos _) (by rw [← pow_add]; congr 1; omega)

/-- A number below `2^p` is 0 if none of its `p` low bits, counted from the top, is set. -/
theorem eq_zero_of_testBit_from_top {f p : Nat} (hf : f < 2 ^ p) (h : ∀ i < p, f.testBit (p - 1 - i) = false) :
    f = 0 := by
  refine Nat.zero_of_testBit_eq_false fun j => ?_
  rcases lt_or_ge j p with hj | hj
  · rw [show j = p - 1 - (p - 1 - j) by omega]
    exact h _ (by omega)
  · exact Nat.testBit_lt_two_pow (hf.trans_le (Nat.pow_le_pow_right Nat.two_pos hj))

section ValidInput

variable (c : Config) {x : Word} {p : Nat} (h1 : 1 ≤ p) (h2 : p ≤ 63)
include h1 h2

theorem fxLog2_exponent_and_fraction (hx : x ≠ 0) : ∃ f : Nat, f < 2 ^ p ∧
    fxLog2 c x p = BitVec.ofInt 64 (((Nat.log2 x.toNat : Int) - p) * 2 ^ p + f) ∧
    ∀ i < p, f.testBit (p - 1 - i) = decide (squareReaches p (mantissa p (normalised x.toNat p) i)) := by
  obtain ⟨f, hf, hsum, hbits⟩ := squareBits_eq p p (normalised x.toNat p) (2 ^ (p - 1))
    (BitVec.ofInt 64 (((Nat.log2 x.toNat : Int) - p) * 2 ^ p)) (.inr rfl)
  have hnorm := normalise_within_turns (BitVec.toNat_ne_iff_ne.2 hx) (log2_lt x hx) (n := wordWidth) (m := wordWidth)
    (show p ≤ 64 by omega) (show 63 - p ≤ 64 by omega)
  refine ⟨f, hf, ?_, hbits⟩
  rw [fxLog2_valid c x p h1 h2 hx, log2Steps]
  simp only [hnorm]
  rw [hsum, BitVec.ofInt_add, BitVec.ofInt_natCast]
  rfl

/-- On a power of two every squaring test fails: the fraction is 0 (R154). -/
theorem fxLog2_two_pow {k : Nat} (hx : x.toNat = 2 ^ k) :
    fxLog2 c x p = BitVec.ofInt 64 (((k : Int) - p) * 2 ^ p) := by
  have hx0 : x ≠ 0 := BitVec.toNat_ne_iff_ne.1 (hx.trans_ne (Nat.two_pow_pos k).ne')
  obtain ⟨f, hf, hlog, hbits⟩ := fxLog2_exponent_and_fraction c h1 h2 hx0
  have hf0 : f = 0 := by
    refine eq_zero_of_testBit_from_top hf fun i hi => ?_
    rw [hbits i hi, hx, normalised_two_pow, mantissa_unit]
    exact decide_eq_false (not_squareReaches_unit p)
  rw [hlog, hf0, hx, Nat.log2_two_pow, Int.natCast_zero, Int.add_zero]

theorem fxLog2_unit (hx : x.toNat = 2 ^ p) : fxLog2 c x p = 0 := by
  rw [fxLog2_two_pow c h1 h2 hx, Int.sub_self, Int.zero_mul]
  rfl

/-- Of an input in `(0, 1.0]` the logarithm is minus an amount of at most `p` units (R154): the exponent is at least
`-p`, and below 1.0 the fraction does not make up for it. -/
theorem fxLog2_of_le_unit (hx : x ≠ 0) (hle : x.toNat ≤ 2 ^ p) :
    ∃ amount : Nat, amount ≤ p * 2 ^ p ∧ fxLog2 c x p = BitVec.ofInt 64 (-amount) := by
  rcases hle.eq_or_lt with heq | hlt
  · exact ⟨0, Nat.zero_le _, fxLog2_unit c h1 h2 heq⟩
  · obtain ⟨f, hf, hlog, -⟩ := fxLog2_exponent_and_fraction c h1 h2 hx
    have hk : Nat.log2 x.toNat < p := (Nat.log2_lt (BitVec.toNat_ne_iff_ne.2 hx)).2 hlt
    have hunit : 2 ^ p ≤ (p - Nat.log2 x.toNat) * 2 ^ p := Nat.le_mul_of_pos_left _ (by omega)
    refine ⟨(p - Nat.log2 x.toNat) * 2 ^ p - f, ?_, ?_⟩
    · exact (Nat.sub_le _ _).trans (Nat.mul_le_mul_right _ (Nat.sub_le _ _))
    · rw [hlog]
      congr 1
      push_cast [hk.le, hf.le.trans hunit]
      ring

end ValidInput

/-! The natural log (R159, R160, R164). -/

theorem fxLn_eq (c : Config) (x : Word) : fxLn c x = fxMul (negW (fxLog2 c x 32)) c.ln2Mag 32 := rfl

theorem fxLn_toNat (c : Config) (x : Word) :
    (fxLn c x).toNat = (2 ^ 64 - (fxLog2 c x 32).toNat) % 2 ^ 64 * c.ln2Mag.toNat / 2 ^ 32 % 2 ^ 64 := by
  rw [fxLn_eq, fxMul_toNat, negW, trunc_toNat]

/-- A zero magnitude carries the sentinel through the negation and the multiply. -/
theorem fxLn_zero_toNat (c : Config) :
    (fxLn c 0).toNat = (2 ^ 64 - c.sentinel.toNat) % 2 ^ 64 * c.ln2Mag.toNat / 2 ^ 32 % 2 ^ 64 := by
  rw [fxLn_toNat, fxLog2_sentinel c 0 32 (.inr (.inr rfl))]

/-- The all-ones sentinel negates to 1, and 1 unit times a constant below 1.0 is below a unit (R164). -/
theorem fxLn_zero_of_sentinel_allOnes {c : Config} (hs : c.sentinel = 0xFFFFFFFFFFFFFFFF)
    (hln2 : c.ln2Mag.toNat < 2 ^ 32) : fxLn c 0 = 0 := by
  have hneg : negW (fxLog2 c 0 32) = 1 := by
    rw [fxLog2_sentinel c 0 32 (.inr (.inr rfl)), hs]
    rfl
  rw [fxLn_eq, hneg]
  exact fxMul_eq_zero_of_lt (by simpa using hln2)

theorem fxLn_one (c : Config) : fxLn c 0x0000000100000000 = 0 := by
  rw [fxLn_eq, fxLog2_unit c (by decide) (by decide) rfl]
  exact fxMul_zero_left _ _

/-- When the log2 word is minus an amount, the multiply is by the amount itself (R160). -/
theorem fxLn_toNat_of_fxLog2_eq_neg {c : Config} {x : Word} {amount : Nat}
    (hlog : fxLog2 c x 32 = BitVec.ofInt 64 (-amount)) (hle : amount ≤ 32 * 2 ^ 32) (hln2 : c.ln2Mag.toNat < 2 ^ 59) :
    (fxLn c x).toNat = amount * c.ln2Mag.toNat / 2 ^ 32 := by
  have hneg : (negW (fxLog2 c x 32)).toNat = amount := by
    rw [hlog, negW_ofInt_neg, trunc_toNat_of_lt (by omega)]
  have hprod : amount * c.ln2Mag.toNat < 2 ^ 32 * 2 ^ 64 :=
    calc amount * c.ln2Mag.toNat ≤ 32 * 2 ^ 32 * c.ln2Mag.toNat := Nat.mul_le_mul_right _ hle
      _ < 32 * 2 ^ 32 * 2 ^ 59 := Nat.mul_lt_mul_of_pos_left hln2 (by decide)
      _ = 2 ^ 32 * 2 ^ 64 := by norm_num
  rw [fxLn_eq, fxMul_toNat, hneg]
  exact Nat.mod_eq_of_lt (Nat.div_lt_of_lt_mul hprod)

/-! FXLN and FXEXPS by the precision of their source (R161, R180). -/

section Commands

variable {s : State} {ra : Reg}

theorem fb_eq_ln2Fb_iff : s.fb ra = ln2Fb ↔ s.prec ra = 32 := BitVec.toNat_inj.symm

/-- The frame of a write after a draw (R181). -/
theorem onlyWrites_takeDraw_complete (s : State) (rd : Reg) (v : FixedPoint) :
    OnlyWrites rd 1 s (s.takeDraw.complete rd v) :=
  ⟨fun r hr => s.takeDraw.complete_reg_ne rd r v hr, ⟨rfl, rfl, rfl⟩, ⟨rfl, rfl, rfl, rfl, rfl⟩, rfl, rfl⟩

variable (hrun : s.halt = false) (rd : Reg)
include hrun

theorem exec_fxln_of_prec_eq (hp : s.prec ra = 32) :
    exec (.fxln rd ra) s = .next (s.complete rd ⟨fxLn s.cfg (s.mag ra), 32⟩) := by
  rw [exec_fxln_running hrun, if_neg (not_not_intro (fb_eq_ln2Fb_iff.2 hp))]
  rfl

theorem exec_fxln_of_prec_ne (hp : s.prec ra ≠ 32) :
    exec (.fxln rd ra) s = .next (s.raise .precisionMismatch) := by
  rw [exec_fxln_running hrun, if_pos (mt fb_eq_ln2Fb_iff.1 hp)]

/-- The zero draw: both divides pass, and `u` is 0 (R188). -/
theorem exec_fxexps_of_zero_draw (hp : s.prec ra = 32) (hq : s.mag ra ≠ 0) (hdraw : s.rnd = 0)
    (hmax : s.cfg.maxDraw.toNat * 2 ^ 32 % 2 ^ 64 ≠ 0) : exec (.fxexps rd ra) s =
      .next (s.takeDraw.complete rd ⟨trunc ((fxLn s.cfg 0).toNat * 2 ^ 32 / (s.mag ra).toNat), 32⟩) := by
  rw [exec_fxexps_running hrun, fb_eq_ln2Fb_iff.2 hp, fxExps_max_ne_zero _ _ _ _ hmax, if_neg (not_not_intro rfl),
    hdraw]
  simp only [show (0 : Word).toNat = 0 from rfl, Nat.zero_mul, Nat.zero_mod, Nat.zero_div, trunc_zero]
  rw [fxDiv_of_ne_zero _ _ _ hq, State.finish_value]
  rfl

end Commands

/-! The obligations. -/

/-- Settles O33: outside its domain the block answers the sentinel, and the command writes it. -/
theorem logarithmOutsideItsDomainStoresTheSentinel : Obligations.LogarithmOutsideItsDomainStoresTheSentinel := by
  intro rd ra s hrun hdom
  have hlog : fxLog2 s.cfg (s.mag ra) (s.prec ra) = s.cfg.sentinel := by
    rcases hdom with hp | hp | hx
    · exact fxLog2_sentinel _ _ _ (.inl (by omega))
    · exact fxLog2_sentinel _ _ _ (.inr (.inl hp))
    · exact fxLog2_sentinel _ _ _ (.inr (.inr hx))
  rw [exec_fxlog2_running hrun, hlog]
  exact ⟨_, rfl, s.complete_reg_self rd _, onlyWrites_complete s rd _⟩

/-- Settles O34, from the turns each loop makes. -/
theorem normalisationReachesTheWindow : Obligations.NormalisationReachesTheWindow := by
  intro x p n m _ _ hx hn hm
  have hx' : x.toNat ≠ 0 := BitVec.toNat_ne_iff_ne.2 hx
  exact ⟨normalised_window p hx', normalise_within_turns hx' (log2_lt x hx) hn hm⟩

/-- Settles O35: the exponent is what step 3 leaves, the fraction what step 4 adds. -/
theorem logarithmIsExponentAndSquaringTests : Obligations.LogarithmIsExponentAndSquaringTests := by
  intro rd ra s hrun h1 h2 hx
  obtain ⟨f, hf, hlog, hbits⟩ := fxLog2_exponent_and_fraction s.cfg h1 h2 hx
  exact ⟨_, f, exec_fxlog2_running hrun rd ra, hf, (s.complete_mag_self rd _).trans hlog, hbits⟩

/-- Settles O36: the fraction of a power of two is 0. -/
theorem logarithmIsExactOnPowersOfTwo : Obligations.LogarithmIsExactOnPowersOfTwo := by
  intro rd ra s k hrun h1 h2 _ hx
  refine ⟨_, exec_fxlog2_running hrun rd ra, s.complete_fb_self rd _, ?_⟩
  rw [State.complete_mag_self]
  refine ⟨fxLog2_two_pow s.cfg h1 h2 hx, ?_, ?_⟩
  · rintro rfl
    exact fxLog2_unit s.cfg h1 h2 hx
  · rintro rfl
    have hone : (((s.prec ra + 1 : Nat) : Int) - s.prec ra) * 2 ^ s.prec ra = ((2 ^ s.prec ra : Nat) : Int) := by
      push_cast
      ring
    rw [fxLog2_two_pow s.cfg h1 h2 hx, hone, BitVec.ofInt_natCast, unit_toNat h2]

/-- Settles O38: the logarithm of 1.0 is 0, that of zero the sentinel. -/
theorem naturalLogOfOneAndOfZero : Obligations.NaturalLogOfOneAndOfZero := by
  intro rd ra s hrun hp
  rw [exec_fxln_of_prec_eq hrun rd hp]
  refine ⟨fun hx => ?_, fun hx => ?_⟩
  · rw [hx, fxLn_one]
    exact ⟨_, rfl, s.complete_reg_self rd _⟩
  · rw [hx]
    refine ⟨_, rfl, onlyWrites_complete s rd _, ?_⟩
    rw [State.complete_mag_self]
    exact ⟨fxLn_zero_toNat s.cfg, fxLn_zero_of_sentinel_allOnes⟩

/-- Settles O39: the negated log2 word is the amount, and amount times `LN2_MAG` overflows nothing. -/
theorem naturalLogBelowOneIsNonnegativeAndBounded : Obligations.NaturalLogBelowOneIsNonnegativeAndBounded := by
  intro rd ra s hrun hp hx hle hln2
  obtain ⟨amount, hamount, hlog⟩ := fxLog2_of_le_unit s.cfg (p := 32) (by decide) (by decide) hx hle
  have hln := fxLn_toNat_of_fxLog2_eq_neg hlog hamount hln2
  refine ⟨_, amount, exec_fxln_of_prec_eq hrun rd hp, ?_, hamount, ?_⟩
  · rw [hlog, signedW_ofInt_neg (by omega)]
  · rw [State.complete_mag_self, hln]
    refine ⟨rfl, Nat.div_le_of_le_mul ?_⟩
    calc amount * s.cfg.ln2Mag.toNat ≤ 32 * 2 ^ 32 * s.cfg.ln2Mag.toNat := Nat.mul_le_mul_right _ hamount
      _ = 2 ^ 32 * (32 * s.cfg.ln2Mag.toNat) := by ring

/-- Settles O43: `u` is 0, so the quotient is that of the sentinel's natural log; both named sentinels, evaluated. -/
theorem zeroDrawFlowsThroughTheSentinel : Obligations.ZeroDrawFlowsThroughTheSentinel := by
  intro rd ra s hrun hp hq hdraw hmax
  refine ⟨_, exec_fxexps_of_zero_draw hrun rd hp hq hdraw hmax, onlyWrites_takeDraw_complete s rd _, ?_⟩
  rw [State.complete_mag_self]
  refine ⟨?_, fun hs hln2 => ?_, fun hs hln2 hq1 => ?_⟩
  · rw [trunc_toNat, fxLn_zero_toNat]
  · rw [fxLn_zero_of_sentinel_allOnes hs hln2]
    simp
  · rw [fxLn_zero_toNat, hs, hln2, hq1]
    decide

/-- Settles O32, from the command's one write. -/
theorem fxlog2StoresTheLogarithm : Obligations.Fxlog2StoresTheLogarithm := fun rd ra =>
  ⟨encodedAs_of_encode_eq rfl (packFields_eq_word 0 0 (fieldOf ra) (fieldOf rd) 0x18), fun s hrun =>
    ⟨_, exec_fxlog2_running hrun rd ra, onlyWrites_complete s rd _, s.complete_mag_self rd _,
      s.complete_fb_self rd _⟩⟩

/-- Settles O37: the precision decides between the write and the fault. -/
theorem fxlnStoresTheScaledNegatedLogarithm : Obligations.FxlnStoresTheScaledNegatedLogarithm := by
  intro rd ra
  refine ⟨encodedAs_of_encode_eq rfl (packFields_eq_word 0 0 (fieldOf ra) (fieldOf rd) 0x19), fun s hrun =>
    ⟨fun hp => ⟨_, exec_fxln_of_prec_eq hrun rd hp, onlyWrites_complete s rd _, s.complete_prec_self rd _, ?_⟩,
      fun hp => ⟨_, exec_fxln_of_prec_ne hrun rd hp, faulted_raise s .precisionMismatch⟩⟩⟩
  rw [State.complete_mag_self, fxLn_toNat]

end Sys2Proof.Machine
end

section
/-! PROOFS. The sampler: FXEXPS by the tests of `fx_exps`, what it stores at precision 32, and the same blocks issued
as commands (spec/43_exponential_sampler.md). -/

namespace Sys2Proof.Machine

open Sys2Proof.Claims

/-- `u` of rule R180 at precision 32: the quotient of the shifted draw by the shifted maximum. -/
def uniformValue (c : Config) (ran : Word) : Word :=
  trunc (ran.toNat * 2 ^ 32 % 2 ^ 64 * 2 ^ 32 / (c.maxDraw.toNat * 2 ^ 32 % 2 ^ 64))

theorem trunc_mod (v : Nat) : trunc (v % 2 ^ 64) = trunc v :=
  BitVec.eq_of_toNat_eq (by rw [trunc_toNat, trunc_toNat, Nat.mod_mod])

theorem trunc_eq_zero_iff {v : Nat} : trunc v = 0 ↔ v % 2 ^ 64 = 0 := by
  rw [← BitVec.toNat_inj, trunc_toNat]
  rfl

/-! The uniform value (R180, R184, R185). -/

section UniformValue

variable {c : Config} {ran : Word}

/-- It is what the first divide answers. -/
theorem fxDiv_shifted_draw (hmax : c.maxDraw.toNat * 2 ^ 32 % 2 ^ 64 ≠ 0) :
    fxDiv (trunc (ran.toNat * 2 ^ 32)) (trunc (c.maxDraw.toNat * 2 ^ 32)) 32 = .value (uniformValue c ran) := by
  rw [fxDiv_of_ne_zero _ _ _ (mt trunc_eq_zero_iff.1 hmax), trunc_toNat, trunc_toNat, uniformValue]

/-- At the maximum draw it is 1.0. -/
theorem uniformValue_maxDraw (hmax : c.maxDraw.toNat * 2 ^ 32 % 2 ^ 64 ≠ 0) :
    uniformValue c c.maxDraw = 0x0000000100000000 := by
  rw [uniformValue, Nat.mul_div_cancel_left _ (Nat.pos_of_ne_zero hmax)]
  rfl

/-- When neither shift truncates, the two shifts cancel. -/
theorem uniformValue_of_maxDraw_lt (hM : c.maxDraw.toNat < 2 ^ 32) (hran : ran.toNat ≤ c.maxDraw.toNat) :
    uniformValue c ran = trunc (ran.toNat * 2 ^ 32 / c.maxDraw.toNat) := by
  rw [uniformValue, Nat.mod_eq_of_lt (by omega), Nat.mod_eq_of_lt (by omega),
    Nat.mul_div_mul_right _ _ (Nat.two_pow_pos 32)]

end UniformValue

/-! A part `n` of a whole `m`, in units of `1 / d`: at most `d`, and `d` only for the whole (R184). -/

section PartOfWhole

variable {n m d : Nat} (hn : n ≤ m)
include hn

theorem part_mul_div_le : n * d / m ≤ d := Nat.div_le_of_le_mul (Nat.mul_le_mul_right d hn)

theorem part_mul_div_eq_iff (hm : 0 < m) (hd : 0 < d) : n * d / m = d ↔ n = m := by
  constructor
  · intro h
    have hle : m * d ≤ n * d := by
      rw [Nat.mul_comm m]
      exact (Nat.le_div_iff_mul_le hm).1 h.ge
    exact hn.antisymm (Nat.le_of_mul_le_mul_right hle hd)
  · rintro rfl
    exact Nat.mul_div_cancel_left d hm

end PartOfWhole

/-! How a command ends: after its draw, after another write, and beside another command (R25, R181, R206). -/

theorem faulted_takeDraw_raise (s : State) (f : UnitFault) :
    Faulted f.cause.code.toNat 1 s (s.takeDraw.raise f) :=
  faulted_afterDraw_raise (.fxexps 0 0) s f

/-- The second of two writes to one register is what stays. -/
theorem State.complete_complete (s : State) (r : Reg) (v w : FixedPoint) :
    (s.complete r v).complete r w = s.complete r w := by
  simp [State.complete]

/-- Two commands that end with one result, from states of one status, agree on what it does to the status and on the
register they write. -/
theorem finish_agrees {u v : State} (hhalt : u.halt = v.halt) (hcause : u.cause = v.cause) (d e : Reg) (p : Precision)
    (b : BlockResult) : (u.finish d p b).halt = (v.finish e p b).halt ∧
      (u.finish d p b).cause = (v.finish e p b).cause ∧
      ((v.finish e p b).halt = false → (u.finish d p b).reg d = (v.finish e p b).reg e) := by
  cases b with
  | value w => exact ⟨hhalt, hcause, fun _ => by simp⟩
  | fault f => exact ⟨rfl, rfl, fun h => nomatch h⟩

/-! FXEXPS, test by test in the order of R183. -/

section Sampler

variable {s : State} {ra : Reg} (hrun : s.halt = false) (rd : Reg)
include hrun

theorem exec_fxexps_of_max_zero (hmax : s.cfg.maxDraw.toNat * 2 ^ s.prec ra % 2 ^ 64 = 0) :
    exec (.fxexps rd ra) s = .next (s.takeDraw.raise .divideByZero) := by
  rw [exec_fxexps_running hrun, fxExps_max_zero _ _ _ _ hmax, State.finish_fault]

theorem exec_fxexps_of_prec_ne (hmax : s.cfg.maxDraw.toNat * 2 ^ s.prec ra % 2 ^ 64 ≠ 0) (hp : s.prec ra ≠ 32) :
    exec (.fxexps rd ra) s = .next (s.takeDraw.raise .precisionMismatch) := by
  rw [exec_fxexps_running hrun, fxExps_max_ne_zero _ _ _ _ hmax, if_pos (mt fb_eq_ln2Fb_iff.1 hp), State.finish_fault]

variable (hp : s.prec ra = 32) (hmax : s.cfg.maxDraw.toNat * 2 ^ 32 % 2 ^ 64 ≠ 0)
include hp hmax

/-- Past the first two tests the last divide decides. -/
theorem exec_fxexps_of_max_ne_zero : exec (.fxexps rd ra) s =
    .next (s.takeDraw.finish rd 32 (fxDiv (fxLn s.cfg (uniformValue s.cfg s.rnd)) (s.mag ra) 32)) := by
  rw [exec_fxexps_running hrun, fb_eq_ln2Fb_iff.2 hp, fxExps_max_ne_zero _ _ _ _ hmax, if_neg (not_not_intro rfl)]
  rfl

theorem exec_fxexps_of_rate_zero (hq : s.mag ra = 0) :
    exec (.fxexps rd ra) s = .next (s.takeDraw.raise .divideByZero) := by
  rw [exec_fxexps_of_max_ne_zero hrun rd hp hmax, hq, fxDiv_zero, State.finish_fault]

theorem exec_fxexps_completes (hq : s.mag ra ≠ 0) : exec (.fxexps rd ra) s = .next (s.takeDraw.complete rd
    ⟨trunc ((fxLn s.cfg (uniformValue s.cfg s.rnd)).toNat * 2 ^ 32 / (s.mag ra).toNat), 32⟩) := by
  rw [exec_fxexps_of_max_ne_zero hrun rd hp hmax, fxDiv_of_ne_zero _ _ _ hq, State.finish_value]

end Sampler

/-! The blocks issued as commands, with the shifted draw in `F[a]` and the shifted maximum in `F[m]` (R180, R182). -/

section ByHand

variable {s : State} {a m q d : Reg} (hrun : s.halt = false)
include hrun

/-- The second command, on the value the first has left in its destination. -/
theorem exec_fxln_complete (x : Word) :
    exec (.fxln d d) (s.complete d ⟨x, 32⟩) = .next (s.complete d ⟨fxLn s.cfg x, 32⟩) := by
  rw [exec_fxln_of_prec_eq (s := s.complete d ⟨x, 32⟩) hrun d (s.complete_prec_self d _), State.complete_mag_self,
    State.complete_cfg, State.complete_complete]

/-- The third command, on the value the second has left there, by a rate in another register. -/
theorem exec_fxdiv_complete (hdq : d ≠ q) (hq : s.prec q = 32) (x : Word) :
    exec (.fxdiv d d q) (s.complete d ⟨x, 32⟩) =
      .next ((s.complete d ⟨x, 32⟩).finish d 32 (fxDiv x (s.mag q) 32)) := by
  have hreg : (s.complete d ⟨x, 32⟩).reg q = s.reg q := s.complete_reg_ne d q _ hdq.symm
  have hmag : (s.complete d ⟨x, 32⟩).mag q = s.mag q := congrArg FixedPoint.mag hreg
  have hprec : (s.complete d ⟨x, 32⟩).prec q = 32 := (congrArg (·.fb.toNat) hreg).trans hq
  have hself : (s.complete d ⟨x, 32⟩).prec d = 32 := s.complete_prec_self d _
  rw [exec_fxdiv_of_prec_eq (s := s.complete d ⟨x, 32⟩) hrun d (hself.trans hprec.symm), hself, hmag,
    State.complete_fb_self, State.complete_mag_self]

variable (ha : s.reg a = ⟨BitVec.ofNat 64 (s.rnd.toNat * 2 ^ 32), 32⟩)
  (hm : s.reg m = ⟨BitVec.ofNat 64 (s.cfg.maxDraw.toNat * 2 ^ 32), 32⟩)
include ha hm

/-- The first command is the sampler's first divide. -/
theorem exec_fxdiv_shifted_draw : exec (.fxdiv d a m) s =
    .next (s.finish d 32 (fxDiv (trunc (s.rnd.toNat * 2 ^ 32)) (trunc (s.cfg.maxDraw.toNat * 2 ^ 32)) 32)) := by
  have hp : s.prec a = s.prec m := by simp only [State.prec, State.fb, ha, hm]
  rw [exec_fxdiv_of_prec_eq hrun d hp]
  simp only [State.prec, State.fb, State.mag, ha, hm]
  rfl

theorem exec_fxdiv_shifted_draw_of_max_zero (hmax : s.cfg.maxDraw.toNat * 2 ^ 32 % 2 ^ 64 = 0) :
    exec (.fxdiv d a m) s = .next (s.raise .divideByZero) := by
  rw [exec_fxdiv_shifted_draw hrun ha hm, trunc_eq_zero_iff.2 hmax, fxDiv_zero, State.finish_fault]

theorem exec_fxdiv_shifted_draw_of_max_ne_zero (hmax : s.cfg.maxDraw.toNat * 2 ^ 32 % 2 ^ 64 ≠ 0) :
    exec (.fxdiv d a m) s = .next (s.complete d ⟨uniformValue s.cfg s.rnd, 32⟩) := by
  rw [exec_fxdiv_shifted_draw hrun ha hm, fxDiv_shifted_draw hmax, State.finish_value]

end ByHand

/-! The obligations. -/

/-- Settles O40, one test after another. -/
theorem fxexpsComposesDivideLogDivide : Obligations.FxexpsComposesDivideLogDivide := by
  intro rd ra
  refine ⟨encodedAs_of_encode_eq rfl (packFields_eq_word 0 0 (fieldOf ra) (fieldOf rd) 0x20), fun s hrun => ?_⟩
  refine ⟨fun hmax => ?_, fun hmax hp => ?_, fun hmax hp hq => ?_, fun hmax hp hq => ?_⟩
  · exact ⟨_, exec_fxexps_of_max_zero hrun rd hmax, faulted_takeDraw_raise s .divideByZero⟩
  · exact ⟨_, exec_fxexps_of_prec_ne hrun rd hmax hp, faulted_takeDraw_raise s .precisionMismatch⟩
  · rw [hp] at hmax
    exact ⟨_, exec_fxexps_of_rate_zero hrun rd hp hmax hq, faulted_takeDraw_raise s .divideByZero⟩
  · rw [hp] at hmax ⊢
    refine ⟨_, exec_fxexps_completes hrun rd hp hmax hq, onlyWrites_takeDraw_complete s rd _,
      s.takeDraw.complete_prec_self rd _, ?_⟩
    rw [State.complete_mag_self, trunc_toNat, uniformValue, ← trunc_mod]
    rfl

/-- Settles O41: the shifts cancel, and the draw is a part of `M`. -/
theorem samplerReducesWhenTheMaximumFits : Obligations.SamplerReducesWhenTheMaximumFits := by
  intro rd ra s hrun hp hq hM0 hM hran
  have hmax : s.cfg.maxDraw.toNat * 2 ^ 32 % 2 ^ 64 ≠ 0 := by omega
  refine ⟨part_mul_div_le hran, ?_, _, exec_fxexps_completes hrun rd hp hmax hq, ?_⟩
  · rw [part_mul_div_eq_iff hran hM0 (Nat.two_pow_pos 32), BitVec.toNat_inj]
  · rw [State.complete_mag_self, trunc_toNat, uniformValue_of_maxDraw_lt hM hran]
    rfl

/-- Settles O42: `u` is 1.0, whose natural log is 0. -/
theorem maximumDrawGivesZeroDelay : Obligations.MaximumDrawGivesZeroDelay := by
  intro rd ra s hrun hp hq hdraw hmax
  refine ⟨_, exec_fxexps_completes hrun rd hp hmax hq, ?_, onlyWrites_takeDraw_complete s rd _⟩
  rw [State.complete_reg_self, hdraw, uniformValue_maxDraw hmax, fxLn_one]
  simp

/-- Settles O44: the shifted maximum is 0 exactly on the multiples of `2^32`. -/
theorem samplerFaultsOnEveryDrawWhenTheMaximumShiftsAway :
    Obligations.SamplerFaultsOnEveryDrawWhenTheMaximumShiftsAway := by
  intro rd ra s hrun hp hq
  refine ⟨fun hM => ?_, fun hM => ?_⟩
  · have hmax : s.cfg.maxDraw.toNat * 2 ^ s.prec ra % 2 ^ 64 = 0 := by rw [hp]; omega
    exact ⟨_, exec_fxexps_of_max_zero hrun rd hmax, faulted_takeDraw_raise s .divideByZero⟩
  · have hmax : s.cfg.maxDraw.toNat * 2 ^ 32 % 2 ^ 64 ≠ 0 := by omega
    exact ⟨_, exec_fxexps_completes hrun rd hp hmax hq, hrun⟩

/-- Settles O45: with the maximum shifted away the first command halts as FXEXPS does and the others are ignored; else
both ends are the last divide's. -/
theorem samplerEqualsItsBlocksIssuedByHand : Obligations.SamplerEqualsItsBlocksIssuedByHand := by
  intro s a m q d e hrun hdq hq ha hm
  by_cases hmax : s.cfg.maxDraw.toNat * 2 ^ 32 % 2 ^ 64 = 0
  · have hexps := exec_fxexps_of_max_zero (ra := q) hrun e (by rw [hq]; exact hmax)
    exact ⟨_, _, _, _, exec_fxdiv_shifted_draw_of_max_zero hrun ha hm hmax, exec_halted _ rfl, exec_halted _ rfl,
      hexps, rfl, rfl, fun h => nomatch h⟩
  · exact ⟨_, _, _, _, exec_fxdiv_shifted_draw_of_max_ne_zero hrun ha hm hmax, exec_fxln_complete hrun _,
      exec_fxdiv_complete hrun hdq hq _, exec_fxexps_of_max_ne_zero hrun e hq hmax,
      finish_agrees (v := s.takeDraw) (s.complete_halt d _) (s.complete_cause d _) d e 32 _⟩

end Sys2Proof.Machine
end

section
/-! PROOFS. Faults: under which condition each command takes which, what taking one leaves unchanged, and the halted
state, which only a reset leaves (spec/60_exceptions.md). -/

namespace Sys2Proof.Machine

open Sys2Proof.Claims

variable {s t : State} {i : Instr}

/-! The status is kept by a write and by a response (R25, R42). -/

theorem sameStatus_complete (s : State) (rd : Reg) (v : FixedPoint) : SameStatus s (s.complete rd v) :=
  ⟨rfl, rfl, rfl⟩

theorem sameStatus_respond (s : State) (v : Word) : SameStatus s (s.respond v) := ⟨rfl, rfl, rfl⟩

/-! The commands whose condition can hold are those of R200 that can take the fault. -/

theorem canMismatch_of_mismatch (h : Mismatch s i) : canMismatch i = true := by
  cases i with
  | fxmul | fxdiv | fxln | fxexps => rfl
  | fxld | fxmov | fxrdm | fxrdp | fxseti | fxsetd | fxgeti | fxgetd | fxlog2 => exact h.elim

theorem canDivideByZero_of_zeroDivisor (h : ZeroDivisor s i) : canDivideByZero i = true := by
  cases i with
  | fxdiv | fxexps => rfl
  | fxld | fxmov | fxrdm | fxrdp | fxseti | fxsetd | fxgeti | fxgetd | fxmul | fxlog2 | fxln => exact h.elim

/-! A running command by its fault conditions, in the order of the tests (R209, R221). -/

section Running

variable (hrun : s.halt = false)
include hrun

theorem exec_of_mismatch (h : Mismatch s i) : exec i s = .next ((afterDraw i s).raise .precisionMismatch) := by
  cases i with
  | fxmul rd ra rb => exact exec_fxmul_of_prec_ne hrun rd h
  | fxdiv rd ra rb => exact exec_fxdiv_of_prec_ne hrun rd h
  | fxln rd ra => exact exec_fxln_of_prec_ne hrun rd h
  | fxexps rd ra =>
    obtain ⟨hmax, hp⟩ := h
    exact exec_fxexps_of_prec_ne hrun rd hmax hp
  | fxld | fxmov | fxrdm | fxrdp | fxseti | fxsetd | fxgeti | fxgetd | fxlog2 => exact h.elim

theorem exec_of_zeroDivisor (h : ZeroDivisor s i) : exec i s = .next ((afterDraw i s).raise .divideByZero) := by
  cases i with
  | fxdiv rd ra rb =>
    obtain ⟨hp, hb⟩ := h
    rw [exec_fxdiv_of_prec_eq hrun rd hp, hb, fxDiv_zero, State.finish_fault]; rfl
  | fxexps rd ra =>
    by_cases hmax : s.cfg.maxDraw.toNat * 2 ^ s.prec ra % 2 ^ 64 = 0
    · exact exec_fxexps_of_max_zero hrun rd hmax
    · obtain ⟨hp, hq⟩ := h.resolve_left hmax
      exact exec_fxexps_of_rate_zero hrun rd hp (by rwa [hp] at hmax) hq
  | fxld | fxmov | fxrdm | fxrdp | fxseti | fxsetd | fxgeti | fxgetd | fxmul | fxlog2 | fxln => exact h.elim

/-- A well-formed command that meets neither condition completes. -/
theorem exec_of_no_fault (hwf : i.WellFormed) (hm : ¬ Mismatch s i) (hz : ¬ ZeroDivisor s i) :
    ∃ t, exec i s = .next t ∧ SameStatus s t := by
  cases i with
  | fxld rd imm =>
    rw [exec_fxld_running hrun, if_pos ((wellFormed_fxld rd imm).1 hwf)]
    exact ⟨_, rfl, sameStatus_complete s rd _⟩
  | fxmov rd ra => exact ⟨_, exec_fxmov_running hrun rd ra, sameStatus_complete s rd _⟩
  | fxrdm ra => exact ⟨_, exec_fxrdm_running hrun ra, sameStatus_respond s _⟩
  | fxrdp ra => exact ⟨_, exec_fxrdp_running hrun ra, sameStatus_respond s _⟩
  | fxseti rd => exact ⟨_, exec_fxseti_running hrun rd, sameStatus_complete s rd _⟩
  | fxsetd rd => exact ⟨_, exec_fxsetd_running hrun rd, sameStatus_complete s rd _⟩
  | fxgeti ra => exact ⟨_, exec_fxgeti_running hrun ra, sameStatus_respond s _⟩
  | fxgetd ra => exact ⟨_, exec_fxgetd_running hrun ra, sameStatus_respond s _⟩
  | fxmul rd ra rb => exact ⟨_, exec_fxmul_of_prec_eq hrun rd (not_not.1 hm), sameStatus_complete s rd _⟩
  | fxdiv rd ra rb =>
    have hp : s.prec ra = s.prec rb := not_not.1 hm
    have hb : s.mag rb ≠ 0 := fun hb => hz ⟨hp, hb⟩
    rw [exec_fxdiv_of_prec_eq hrun rd hp, fxDiv_of_ne_zero _ _ _ hb, State.finish_value]
    exact ⟨_, rfl, sameStatus_complete s rd _⟩
  | fxlog2 rd ra => exact ⟨_, exec_fxlog2_running hrun rd ra, sameStatus_complete s rd _⟩
  | fxln rd ra => exact ⟨_, exec_fxln_of_prec_eq hrun rd (not_not.1 hm), sameStatus_complete s rd _⟩
  | fxexps rd ra =>
    have hmax : s.cfg.maxDraw.toNat * 2 ^ s.prec ra % 2 ^ 64 ≠ 0 := fun h => hz (.inl h)
    have hp : s.prec ra = 32 := by_contra fun hp => hm ⟨hmax, hp⟩
    have hq : s.mag ra ≠ 0 := fun hq => hz (.inr ⟨hp, hq⟩)
    exact ⟨_, exec_fxexps_completes hrun rd hp (by rwa [hp] at hmax) hq, sameStatus_complete s.takeDraw rd _⟩

/-- Everything a well-formed command can do to the status (R200, R221). -/
theorem exec_status_cases (hwf : i.WellFormed) (h : exec i s = .next t) :
    (Mismatch s i ∧ t = (afterDraw i s).raise .precisionMismatch) ∨
    (ZeroDivisor s i ∧ t = (afterDraw i s).raise .divideByZero) ∨
    (¬ Mismatch s i ∧ ¬ ZeroDivisor s i ∧ SameStatus s t) := by
  by_cases hm : Mismatch s i
  · rw [exec_of_mismatch hrun hm] at h; cases h; exact .inl ⟨hm, rfl⟩
  by_cases hz : ZeroDivisor s i
  · rw [exec_of_zeroDivisor hrun hz] at h; cases h; exact .inr (.inl ⟨hz, rfl⟩)
  obtain ⟨u, hu, hsame⟩ := exec_of_no_fault hrun hwf hm hz
  rw [hu] at h; cases h; exact .inr (.inr ⟨hm, hz, hsame⟩)

end Running

/-! R213, R221: what explains a recorded fault, and that nothing but a fault or a reset writes the record. -/

theorem FaultExplained.of_sameStatus (hs : FaultExplained s) (h : SameStatus s t) : FaultExplained t := by
  obtain ⟨-, hcause, hfcmd⟩ := h
  rwa [FaultExplained, hcause, hfcmd]

theorem exec_keeps_faultExplained (hrun : s.halt = false) (hd : decode s.cmd = .command i) (hs : FaultExplained s)
    (h : exec i s = .next t) : FaultExplained t := by
  obtain ⟨-, hwf⟩ := decodedWordIsItsEncoding _ _ hd
  have hfcmd (f : UnitFault) : decode ((afterDraw i s).raise f).fcmd = .command i := by
    rw [State.raise_fcmd, afterDraw_cmd, hd]
  rcases exec_status_cases hrun hwf h with ⟨hm, rfl⟩ | ⟨hz, rfl⟩ | ⟨-, -, hsame⟩
  · exact ⟨i, hfcmd _, canMismatch_of_mismatch hm⟩
  · exact ⟨i, hfcmd _, canDivideByZero_of_zeroDivisor hz⟩
  · exact hs.of_sameStatus hsame

/-- Settles O57: what a command writes to the record explains it, an illegal word explains its own fault, and nothing
else but a reset writes it. -/
theorem recordedFaultStaysExplained : Obligations.RecordedFaultStaysExplained := by
  intro s t hs h
  rcases step_cases h with ⟨-, rfl⟩ | ⟨rest, -, rfl⟩ | ⟨c, w, n, rest, -, hcmd⟩
  · exact hs
  · exact faultExplained_resetUnit { s with pending := rest }
  have hacc : FaultExplained (s.accept rest c w n) := hs
  rcases hcmd with ⟨-, rfl⟩ | ⟨hrun, ⟨i, hd, hi, -⟩ | ⟨why, hd, rfl⟩⟩
  · exact hacc.of_sameStatus ⟨rfl, rfl, rfl⟩
  · exact exec_keeps_faultExplained (s := s.accept rest c w n) hrun hd hacc hi
  · exact ⟨why, hd⟩

/-- Settles O46, from the three ways a command can treat the status. -/
theorem faultConditionsByCommand : Obligations.FaultConditionsByCommand := by
  intro i s hwf hrun
  obtain ⟨t, ht⟩ := exec_answers i s
  have hmismatch (hm : Mismatch s i) : t = (afterDraw i s).raise .precisionMismatch := by
    rw [exec_of_mismatch hrun hm] at ht; cases ht; rfl
  have hzero (hz : ZeroDivisor s i) : t = (afterDraw i s).raise .divideByZero := by
    rw [exec_of_zeroDivisor hrun hz] at ht; cases ht; rfl
  refine ⟨t, ht, ⟨fun hhalt => ?_, ?_⟩, fun hm => by rw [hmismatch hm]; rfl, fun hz => by rw [hzero hz]; rfl,
    fun hm hz => ?_⟩
  · rcases exec_status_cases hrun hwf ht with ⟨hm, -⟩ | ⟨hz, -⟩ | ⟨-, -, hsame, -⟩
    · exact .inl hm
    · exact .inr hz
    · rw [hsame, hrun] at hhalt; cases hhalt
  · rintro (hm | hz)
    · rw [hmismatch hm]; rfl
    · rw [hzero hz]; rfl
  · rcases exec_status_cases hrun hwf ht with ⟨hm', -⟩ | ⟨hz', -⟩ | ⟨-, -, -, hcause, -⟩
    · exact absurd hm' hm
    · exact absurd hz' hz
    · exact congrArg Cause.code hcause

/-! Taking a fault (R206). -/

theorem UnitFault.code_bounds (f : UnitFault) : 1 ≤ f.cause.code.toNat ∧ f.cause.code.toNat ≤ 3 := by
  cases f <;> decide

/-- Of the ways a running command ends, only a fault halts the unit. -/
theorem Ends.faulted (he : Ends i s t) (hrun : s.halt = false) (hhalt : t.halt = true) :
    ∃ code, 1 ≤ code ∧ code ≤ 3 ∧ Faulted code (drawCount i) s t := by
  cases he with
  | writes rd v _ => rw [State.complete_halt, afterDraw_halt, hrun] at hhalt; cases hhalt
  | responds v _ => rw [State.respond_halt, hrun] at hhalt; cases hhalt
  | faults f =>
    obtain ⟨hpos, hle⟩ := f.code_bounds
    exact ⟨_, hpos, hle, faulted_afterDraw_raise i s f⟩

theorem exec_faulted (hrun : s.halt = false) (h : exec i s = .next t) (hhalt : t.halt = true) :
    ∃ code, 1 ≤ code ∧ code ≤ 3 ∧ Faulted code (drawCount i) s t := by
  rcases exec_cases h with ⟨hh, -⟩ | ⟨-, he⟩
  · rw [hrun] at hh; cases hh
  · exact he.faulted hrun hhalt

/-- Settles O47: a command by the way it ends; a step by its event, of which only a presented word can halt the unit. -/
theorem faultEntryWritesOnlyTheStatus : Obligations.FaultEntryWritesOnlyTheStatus := by
  refine ⟨fun i s t => exec_faulted, fun s t hrun h hhalt => ?_⟩
  rcases step_cases h with ⟨-, rfl⟩ | ⟨rest, -, rfl⟩ | ⟨c, w, n, rest, hp, hcmd⟩
  · rw [hrun] at hhalt; cases hhalt
  · cases hhalt
  rcases hcmd with ⟨hh, -⟩ | ⟨-, ⟨i, hd, -, he⟩ | ⟨why, hd, rfl⟩⟩
  · rw [hrun] at hh; cases hh
  · obtain ⟨code, hpos, hle, hf⟩ := he.faulted hrun hhalt
    refine ⟨c, w, n, rest, code, drawCount i, hp, hpos, hle, hf, ?_⟩
    split_ifs with hexps
    · obtain ⟨rd, ra, hexps⟩ := hexps
      rw [hd] at hexps; cases hexps; rfl
    · exact drawCount_of_ne_fxexps fun rd ra hi => hexps ⟨rd, ra, hi ▸ hd⟩
  · refine ⟨c, w, n, rest, 3, 0, hp, by decide, le_rfl, faulted_raise (s.accept rest c w n) .illegalCommand, ?_⟩
    rw [if_neg (by rintro ⟨rd, ra, hexps⟩; rw [hd] at hexps; cases hexps)]

/-! The halted state (R207, R213). -/

/-- Settles O8: a command looks at `HALT` first, and so does an illegal word. -/
theorem haltedUnitIgnoresEveryCommand : Obligations.HaltedUnitIgnoresEveryCommand := fun _ hh =>
  ⟨fun i => exec_halted i hh, fun _ _ _ _ hp =>
    ⟨_, step_command_of_halted hp hh, fun _ => rfl, ⟨rfl, rfl, rfl⟩, rfl, rfl, rfl, rfl⟩⟩

/-- Settles O9, by the kind of the next event: only a reset writes `HALT`. -/
theorem onlyResetLeavesTheHaltedState : Obligations.OnlyResetLeavesTheHaltedState := by
  intro s t h hh
  match hp : s.pending with
  | [] =>
    rw [step_idle hp] at h; cases h
    exact ⟨fun hrun => absurd (hh.symm.trans hrun) (by decide), fun _ => ⟨⟨rfl, rfl, rfl⟩, fun _ => rfl⟩⟩
  | .reset :: rest =>
    rw [step_reset hp] at h; cases h
    exact ⟨fun _ => ⟨⟨rest, rfl⟩, State.resetUnit_reg _, rfl, rfl⟩, nofun⟩
  | .command c w n :: rest =>
    rw [step_command_of_halted hp hh] at h; cases h
    exact ⟨fun hrun => absurd (hh.symm.trans hrun) (by decide), fun _ => ⟨⟨rfl, rfl, rfl⟩, fun _ => rfl⟩⟩

/-- Settles O12: the step on no event. -/
theorem idleUnitHoldsItsState : Obligations.IdleUnitHoldsItsState := fun _ => step_idle

/-! Runs in which the host presents no reset (R207, R239). -/

/-- No reset is among the events the host has still to present. -/
def NoResetPending (s : State) : Prop := ∀ e ∈ s.pending, e ≠ .reset

theorem NoResetPending.step (hs : NoResetPending s) (h : step s = .next t) : NoResetPending t := fun e he =>
  hs e (List.mem_of_mem_tail (eventsAreTakenInOrder s t h ▸ he))

theorem step_halted_of_noResetPending (hs : NoResetPending s) (h : step s = .next t) (hh : s.halt = true) :
    t.halt = true := by
  obtain ⟨hexit, -⟩ := onlyResetLeavesTheHaltedState s t h hh
  by_contra hrun
  obtain ⟨⟨rest, hp⟩, -⟩ := hexit (Bool.eq_false_of_not_eq_true hrun)
  exact hs .reset (hp ▸ List.mem_cons_self) rfl

/-- A run succeeds exactly when it does from the state its first step answers. -/
theorem runSucceeds_succ_iff (h : step s = .next t) (k : Nat) : RunSucceeds (k + 1) s ↔ RunSucceeds k t := by
  rw [RunSucceeds, RunSucceeds, core_run_succ h]

theorem runSucceeds_zero_iff (s : State) : RunSucceeds 0 s ↔ s.halt = false := by
  constructor
  · rintro ⟨t, ht, hrun⟩; cases ht; exact hrun
  · exact fun hrun => ⟨s, rfl, hrun⟩

/-- Without a reset a halted unit stays halted, so a run that succeeds starts from a running one. -/
theorem RunSucceeds.running {k : Nat} (hs : NoResetPending s) (h : RunSucceeds k s) : s.halt = false := by
  induction k generalizing s with
  | zero => exact (runSucceeds_zero_iff s).1 h
  | succ k ih =>
    obtain ⟨t, ht⟩ := step_answers s
    have hrun : t.halt = false := ih (hs.step ht) ((runSucceeds_succ_iff ht k).1 h)
    by_contra hh
    rw [step_halted_of_noResetPending hs ht (Bool.eq_true_of_not_eq_false hh)] at hrun
    cases hrun

theorem RunSucceeds.of_le {j k : Nat} (hs : NoResetPending s) (h : RunSucceeds k s) (hj : j ≤ k) :
    RunSucceeds j s := by
  induction j generalizing s k with
  | zero => exact (runSucceeds_zero_iff s).2 (h.running hs)
  | succ j ih =>
    obtain ⟨k, rfl⟩ := Nat.exists_eq_succ_of_ne_zero (Nat.ne_of_gt (Nat.zero_lt_of_lt hj))
    obtain ⟨t, ht⟩ := step_answers s
    have htail : RunSucceeds k t := (runSucceeds_succ_iff ht k).1 h
    exact (runSucceeds_succ_iff ht j).2 (ih (hs.step ht) htail (Nat.le_of_succ_le_succ hj))

/-- Settles O16: every shorter run ends in a running state, because the rest of the run starts from it. -/
theorem successfulRunWasNeverHalted : Obligations.SuccessfulRunWasNeverHalted := fun _ _ hs h _ => h.of_le hs

end Sys2Proof.Machine
end
